-- ==== Sys2Proof/Word.lean ====
section
/-! DEFINITION. The value types of the block (00_scope.md R7): a byte is 8 bits, `u16`, `u24` and `u29` are unsigned
integers of those widths, and nothing is signed. -/

namespace Sys2Proof

/-- A byte, unsigned 0 to 255 (R7). -/
abbrev Byte := BitVec 8

/-- `u16`: a checksum, a FILL offset, a PROCESS length (R7). -/
abbrev U16 := BitVec 16

/-- `u24`: the codec's expected payload length (10_state.md R25). -/
abbrev U24 := BitVec 24

/-- A 29-bit CAN frame identifier (30_encoding.md R84). -/
abbrev CanId := BitVec 29

/-- A 32-bit word of a command: `H`, `Lw` or `I` (30_encoding.md R70, R71). -/
abbrev Word := BitVec 32

end Sys2Proof
end

