-- ==== Sys2Proof/Config.lean ====
section
/-! DEFINITION. What an implementation of the block fixes (00_scope.md R6), and the values the spec leaves free. -/

namespace Sys2Proof

/-- The parameters of 00_scope.md R6, fixed when the block is built (10_state.md R32). A model takes them as an argument:
this one carries them in `State.params`, which nothing writes (log 1). -/
structure Params where
  /-- `N_CODEC`: number of Packet Codec instances. -/
  nCodec : Nat
  /-- `MAX_PAYLOAD`: largest accepted codec payload length, inclusive. -/
  maxPayload : Nat
  /-- `RX_CAPACITY`: codec receive buffer size in bytes. -/
  rxCapacity : Nat
  /-- `CAN_BUF_CAPACITY`: size in bytes of each reassembly buffer. -/
  canBufCapacity : Nat
  /-- `TYPE_SHORT`: packet type of SHORT_BUFFER frames. -/
  typeShort : Byte
  /-- `TYPE_FILL`: packet type of FILL_BUFFER frames. -/
  typeFill : Byte
  /-- `TYPE_PROCESS`: packet type of PROCESS_BUFFER (commit) frames. -/
  typeProcess : Byte
  /-- `TX_MAX_ATTEMPTS`: attempts per CAN frame before the fragmenter abandons. -/
  txMaxAttempts : Nat
  /-- `TX_PRESENT[k]`, k = 0 first: whether codec instance k has a transmit port. -/
  txPresent : List Bool
deriving DecidableEq, Repr

/-- The legal ranges of 00_scope.md R6 (and 70_reset_and_hazards.md R223). -/
abbrev Params.legal (p : Params) : Prop :=
  1 ≤ p.nCodec ∧ p.maxPayload ≤ 16777215 ∧ p.rxCapacity ≤ p.maxPayload ∧ p.canBufCapacity ≤ 65535 ∧
  p.typeShort ≠ p.typeFill ∧ p.typeShort ≠ p.typeProcess ∧ p.typeFill ≠ p.typeProcess ∧
  1 ≤ p.txMaxAttempts ∧ p.txPresent.length = p.nCodec

/-- The reference values of 00_scope.md R6: the spec's own choice, used by its test vectors (log 1; the packet-type codes
PRESUMED by the spec from general knowledge, log 2). -/
def Params.reference : Params where
  nCodec := 4
  maxPayload := 512
  rxCapacity := 512
  canBufCapacity := 512
  typeShort := 8
  typeFill := 5
  typeProcess := 7
  txMaxAttempts := 3
  txPresent := [true, true, true, true]

/-- The addressable stores of 20_memory.md R50. -/
inductive Store where
  /-- The receive buffer of codec instance `k`. -/
  | codecBuf (k : Nat)
  /-- The reassembly buffer of key `a`. -/
  | rbuf (a : Byte)
deriving DecidableEq, Repr

/-- The bus's answer to one transmit attempt (42_can_tx.md R146). -/
inductive BusAnswer where
  | accept
  | busy
deriving DecidableEq, Repr, Inhabited

/-- FREE VALUE: what the byte of `store` at `addr` reads as while nothing has written it (10_state.md R34:
"unspecified"; log 9). -/
opaque Config.unwrittenByte (store : Store) (addr : Nat) : Byte

/-- FREE VALUE: the answer the environment gives to the `n`-th attempt that no scripted answer covers
(42_can_tx.md R146: "the environment's choice"; log 11). -/
opaque Config.busAnswer (n : Nat) : BusAnswer

end Sys2Proof
end

