-- ==== Sys2Proof/Syntax.lean ====
section
/-! DEFINITION. The instructions: one constructor per row of spec/opcode_table.json, and the form in which each of the
three interfaces presents one (the table's column "format": a command, a CAN frame, a wire byte). -/

namespace Sys2Proof

/-- The parse phase of a codec (10_state.md R25). It decides what a wire byte is (30_encoding.md R76, R92). -/
inductive Phase where
  | idle
  | length
  | payload
  | crcHi
  | crcLo
  /-- The phase END. -/
  | endMark
deriving DecidableEq, Repr

/-- The instructions of the block. The first six are the operations of 10_state.md R23; the next four are the classes of a
frame at the CAN interface (30_encoding.md R86); the last four are the markers at a codec's endpoint (R76). -/
inductive Instr where
  /-- CRC16 (40_crc.md R102): the checksum of the byte sequence `s`. -/
  | crc16 (s : List Byte)
  /-- CODEC_RESET (41_codec.md R110) of instance `k`. -/
  | reset (k : Nat)
  /-- CODEC_PROCESS_BYTE (41_codec.md R111): byte `b` into instance `k`. -/
  | byte (k : Nat) (b : Byte)
  /-- CODEC_SEND (41_codec.md R125): payload `p` out of instance `k`. -/
  | send (k : Nat) (p : List Byte)
  /-- CAN_SEND_BUFFER (42_can_tx.md R140): payload `p` to address `a`. -/
  | sendbuf (a : Byte) (p : List Byte)
  /-- CAN_RX_FRAME (43_can_rx.md R160): the frame with identifier `id` and data bytes `d`; its dlc is the length of `d`
  (log 18). -/
  | rx (id : CanId) (d : List Byte)
  /-- A SHORT frame (43_can_rx.md R163): `hi` is the ignored field id[28:16], `a` the key id[7:0]. -/
  | canShort (hi : BitVec 13) (a : Byte) (d : List Byte)
  /-- A FILL frame (43_can_rx.md R165). -/
  | canFill (hi : BitVec 13) (a : Byte) (d : List Byte)
  /-- A PROCESS (commit) frame (43_can_rx.md R172). -/
  | canProcess (hi : BitVec 13) (a : Byte) (d : List Byte)
  /-- A frame of any other packet type (43_can_rx.md R175). -/
  | canOther (id : CanId) (d : List Byte)
  /-- The byte 0x02 at the endpoint of instance `k`, read as a start marker (41_codec.md R112). -/
  | wireStart1 (k : Nat)
  /-- The byte 0x03 read as a start marker (41_codec.md R112). -/
  | wireStart2 (k : Nat)
  /-- The byte 0x04 read as a start marker (41_codec.md R112). -/
  | wireStart3 (k : Nat)
  /-- The byte 0x03 read as the end marker (41_codec.md R119). -/
  | wireEnd (k : Nat)
deriving DecidableEq, Repr

/-- What an interface of the block presents as one operation (log 4). -/
inductive Encoded where
  /-- The bytes of a command (30_encoding.md R70, R71); bytes after the first command are the next command's (log 7). -/
  | command (bytes : List Byte)
  /-- A whole frame at the CAN interface (30_encoding.md R85). -/
  | canFrame (id : CanId) (d : List Byte)
  /-- One byte at the endpoint of codec instance `k` (41_codec.md R111). -/
  | wireByte (k : Nat) (b : Byte)
deriving DecidableEq, Repr

/-- One item of what the environment does to the block (10_state.md R20; log 3, log 14). -/
inductive Input where
  /-- It presents an operation. -/
  | present (x : Encoded)
  /-- The endpoint of codec instance `k` closes (41_codec.md R127). -/
  | closeEndpoint (k : Nat)
  /-- A new connection opens on the endpoint of instance `k` (41_codec.md R127). -/
  | openEndpoint (k : Nat)
deriving DecidableEq, Repr

/-- Why a command is ill-formed (30_encoding.md R72). -/
inductive DecodeError where
  /-- `op` is 6 or 7. -/
  | reservedOp
  /-- `H[7:3]` is not 0. -/
  | reservedLow
  /-- `H[31:24]` is not 0. -/
  | reservedHigh
  /-- `op` is 1, 2 or 3 and `inst ≥ N_CODEC`. -/
  | badInstance
  /-- `op` is not 1, 2 or 3 and `inst ≠ 0`. -/
  | strayInstance
  /-- `op` is 0, 1 or 3 and `arg8 ≠ 0`. -/
  | strayArg
  /-- A frame with `dlc > 8`. -/
  | dlcTooLong
  /-- `op` is 5 and `I[31:29] ≠ 0`. -/
  | reservedIdBits
  /-- Fewer bytes than R71 requires. -/
  | truncated
deriving DecidableEq, Repr

end Sys2Proof
end

