-- ==== Sys2Proof/WellFormed.lean ====
section
/-! DEFINITION. Which instructions the encodings of 30_encoding.md can carry and the block accepts (R70 to R72, R84 to R89). -/

namespace Sys2Proof

/-- The instance index of a command: below `N_CODEC` (R72) and in the 8 bits of `inst` (R70). -/
abbrev WellFormed.instIndex (p : Params) (k : Nat) : Prop := k < p.nCodec ∧ k < 256

/-- A byte operand's length fits the 32-bit word `Lw` (R71). -/
abbrev WellFormed.operandBytes (s : List Byte) : Prop := s.length < 4294967296

/-- A frame holds at most eight data bytes (R85). -/
abbrev WellFormed.frameData (d : List Byte) : Prop := d.length ≤ 8

/-- The packet type field id[15:8] is none of the three codes (R86). -/
abbrev WellFormed.otherType (p : Params) (id : CanId) : Prop :=
  id.extractLsb' 8 8 ≠ p.typeShort ∧ id.extractLsb' 8 8 ≠ p.typeFill ∧ id.extractLsb' 8 8 ≠ p.typeProcess

/-- Well-formed instructions of a block with parameters `p`. The decoder yields no others from a command; `exec` does not check
it again (log 23). -/
abbrev WellFormed (p : Params) (i : Instr) : Prop :=
  match i with
  | .crc16 s => WellFormed.operandBytes s
  | .reset k => WellFormed.instIndex p k
  | .byte k _ => WellFormed.instIndex p k
  | .send k s => WellFormed.instIndex p k ∧ WellFormed.operandBytes s
  | .sendbuf _ s => WellFormed.operandBytes s
  | .rx _ d => WellFormed.frameData d
  | .canShort _ _ d => WellFormed.frameData d
  | .canFill _ _ d => WellFormed.frameData d
  | .canProcess _ _ d => WellFormed.frameData d
  | .canOther id d => WellFormed.frameData d ∧ WellFormed.otherType p id
  | .wireStart1 k => k < p.nCodec
  | .wireStart2 k => k < p.nCodec
  | .wireStart3 k => k < p.nCodec
  | .wireEnd k => k < p.nCodec

end Sys2Proof
end

