-- ==== Sys2Proof/Decode.lean ====
section
/-! DEFINITION. Decoding and encoding at the three interfaces (30_encoding.md): commands (R70 to R72), CAN frames (R84, R86)
and wire bytes (R76, R92). All words are carried most significant byte first (R52, R53, R71). -/

namespace Sys2Proof

/-! ## Byte order (00_scope.md R8) -/

/-- `be16(v)`: the two bytes of `v`, most significant first (R8). -/
def be16 (v : U16) : List Byte := [v.extractLsb' 8 8, v.extractLsb' 0 8]

/-- `be24(v)`: the three bytes of `v`, most significant first (R8). -/
def be24 (v : U24) : List Byte := [v.extractLsb' 16 8, v.extractLsb' 8 8, v.extractLsb' 0 8]

/-- The four bytes of a command word, most significant first (R71). -/
def be32 (v : Word) : List Byte :=
  [v.extractLsb' 24 8, v.extractLsb' 16 8, v.extractLsb' 8 8, v.extractLsb' 0 8]

/-- The 16-bit number whose bytes are `hi` and `lo` (R53). -/
def u16OfBytes (hi lo : Byte) : U16 := hi ++ lo

/-- The 32-bit number whose bytes are given most significant first (R71). -/
def wordOfBytes (b3 b2 b1 b0 : Byte) : Word := b3 ++ b2 ++ b1 ++ b0

/-- The word at the front of a byte sequence, and the bytes after it; none if fewer than four bytes are there. -/
def takeWord (bs : List Byte) : Option (Word × List Byte) :=
  match bs with
  | b3 :: b2 :: b1 :: b0 :: rest => some (wordOfBytes b3 b2 b1 b0, rest)
  | _ => none

/-- The first `n` bytes and the bytes after them; none if there are fewer than `n`. -/
def takeBytes (n : Nat) (bs : List Byte) : Option (List Byte × List Byte) :=
  if n ≤ bs.length then some (bs.take n, bs.drop n) else none

/-- A 32-bit word `Lw` and then `Lw` bytes (R71). -/
def takeSized (bs : List Byte) : Option (List Byte × List Byte) :=
  match takeWord bs with
  | none => none
  | some (lw, rest) => takeBytes lw.toNat rest

/-! ## The fields of the header word `H` (R70) and of an identifier (R84) -/

/-- `H[2:0]`. -/
def headerOp (h : Word) : Nat := (h.extractLsb' 0 3).toNat

/-- `H[7:3]`, reserved. -/
def headerLow (h : Word) : BitVec 5 := h.extractLsb' 3 5

/-- `H[15:8]`, the codec instance index. -/
def headerInst (h : Word) : Nat := (h.extractLsb' 8 8).toNat

/-- `H[23:16]`: the byte, the target address or the dlc. -/
def headerArg (h : Word) : Byte := h.extractLsb' 16 8

/-- `H[31:24]`, reserved. -/
def headerHigh (h : Word) : Byte := h.extractLsb' 24 8

/-- The header word with the given fields, the reserved ones 0. -/
def headerWord (op : BitVec 3) (inst arg : Byte) : Word := (0 : Byte) ++ arg ++ inst ++ (0 : BitVec 5) ++ op

/-- `id[7:0]`, the controller address (R84). -/
def idAddress (id : CanId) : Byte := id.extractLsb' 0 8

/-- `id[15:8]`, the packet type (R84). -/
def idType (id : CanId) : Byte := id.extractLsb' 8 8

/-- `id[28:16]`, 0 on transmit and ignored on receive (R84). -/
def idHigh (id : CanId) : BitVec 13 := id.extractLsb' 16 13

/-- The identifier with the given fields (R84). -/
def canId (hi : BitVec 13) (type a : Byte) : CanId := hi ++ type ++ a

/-! ## Decoding -/

/-- The operations that name a codec instance: op 1, 2 and 3 (R70). -/
def usesInstance (op : Nat) : Bool := op == 1 || op == 2 || op == 3

/-- The operations that leave `arg8` unused: op 0, 1 and 3 (R70). -/
def leavesArg (op : Nat) : Bool := op == 0 || op == 1 || op == 3

/-- What R72 finds wrong with a header word, if anything. The order of the tests is the model's (log 25). -/
def headerError (p : Params) (h : Word) : Option DecodeError :=
  let op := headerOp h
  if 6 ≤ op then some .reservedOp
  else if headerLow h ≠ 0 then some .reservedLow
  else if headerHigh h ≠ 0 then some .reservedHigh
  else if usesInstance op ∧ p.nCodec ≤ headerInst h then some .badInstance
  else if ¬ usesInstance op ∧ headerInst h ≠ 0 then some .strayInstance
  else if leavesArg op ∧ headerArg h ≠ 0 then some .strayArg
  else if op = 5 ∧ 8 < (headerArg h).toNat then some .dlcTooLong
  else none

/-- The operand of CRC16, CODEC_SEND and CAN_SEND_BUFFER: `Lw` and its bytes (R71). -/
def decodeSized (make : List Byte → Instr) (bs : List Byte) : Except DecodeError (Instr × List Byte) :=
  match takeSized bs with
  | none => .error .truncated
  | some (s, rest) => .ok (make s, rest)

/-- The operands of CAN_RX_FRAME: the word `I` and `dlc` data bytes (R71). -/
def decodeRx (dlc : Nat) (bs : List Byte) : Except DecodeError (Instr × List Byte) :=
  match takeWord bs with
  | none => .error .truncated
  | some (w, rest) =>
    if w.extractLsb' 29 3 ≠ 0 then .error .reservedIdBits
    else
      match takeBytes dlc rest with
      | none => .error .truncated
      | some (d, rest') => .ok (.rx (w.extractLsb' 0 29) d, rest')

/-- The operation that `H[2:0]` alone selects (R92), with its operands. -/
def decodeOperands (h : Word) (bs : List Byte) : Except DecodeError (Instr × List Byte) :=
  match headerOp h with
  | 0 => decodeSized .crc16 bs
  | 1 => .ok (.reset (headerInst h), bs)
  | 2 => .ok (.byte (headerInst h) (headerArg h), bs)
  | 3 => decodeSized (.send (headerInst h)) bs
  | 4 => decodeSized (.sendbuf (headerArg h)) bs
  | 5 => decodeRx (headerArg h).toNat bs
  | _ => .error .reservedOp

/-- The first command of a byte sequence (R70 to R72), and the bytes after it. -/
def decodeCommand (p : Params) (bs : List Byte) : Except DecodeError (Instr × List Byte) :=
  match takeWord bs with
  | none => .error .truncated
  | some (h, rest) =>
    match headerError p h with
    | some e => .error e
    | none => decodeOperands h rest

/-- The class of a CAN frame by its type field (R86). -/
def classifyFrame (p : Params) (id : CanId) (d : List Byte) : Instr :=
  if idType id = p.typeShort then .canShort (idHigh id) (idAddress id) d
  else if idType id = p.typeFill then .canFill (idHigh id) (idAddress id) d
  else if idType id = p.typeProcess then .canProcess (idHigh id) (idAddress id) d
  else .canOther id d

/-- What a byte at the endpoint of instance `k` is, in the codec's phase `ph` (R76, R80, R92). -/
def classifyByte (ph : Phase) (k : Nat) (b : Byte) : Instr :=
  match ph with
  | .idle => if b = 0x02 then .wireStart1 k else if b = 0x03 then .wireStart2 k
             else if b = 0x04 then .wireStart3 k else .byte k b
  | .endMark => if b = 0x03 then .wireEnd k else .byte k b
  | .length | .payload | .crcHi | .crcLo => .byte k b

/-- Decode what an interface presents. `ph` is the phase of the codec that a wire byte goes to. The second component is
what is left of a byte sequence after its first command. -/
def decode (p : Params) (ph : Phase) (x : Encoded) : Except DecodeError (Instr × List Byte) :=
  match x with
  | .command bs => decodeCommand p bs
  | .canFrame id d => if 8 < d.length then .error .dlcTooLong else .ok (classifyFrame p id d, [])
  | .wireByte k b => .ok (classifyByte ph k b, [])

/-! ## Encoding -/

/-- `Lw` and the bytes of `s` (R71). -/
def encodeSized (s : List Byte) : List Byte := be32 (BitVec.ofNat 32 s.length) ++ s

/-- The form in which the block is presented with `i`. -/
def encode (p : Params) (i : Instr) : Encoded :=
  match i with
  | .crc16 s => .command (be32 (headerWord 0 0 0) ++ encodeSized s)
  | .reset k => .command (be32 (headerWord 1 (BitVec.ofNat 8 k) 0))
  | .byte k b => .command (be32 (headerWord 2 (BitVec.ofNat 8 k) b))
  | .send k s => .command (be32 (headerWord 3 (BitVec.ofNat 8 k) 0) ++ encodeSized s)
  | .sendbuf a s => .command (be32 (headerWord 4 0 a) ++ encodeSized s)
  | .rx id d => .command (be32 (headerWord 5 0 (BitVec.ofNat 8 d.length)) ++ (be32 (id.setWidth 32) ++ d))
  | .canShort hi a d => .canFrame (canId hi p.typeShort a) d
  | .canFill hi a d => .canFrame (canId hi p.typeFill a) d
  | .canProcess hi a d => .canFrame (canId hi p.typeProcess a) d
  | .canOther id d => .canFrame id d
  | .wireStart1 k => .wireByte k 0x02
  | .wireStart2 k => .wireByte k 0x03
  | .wireStart3 k => .wireByte k 0x04
  | .wireEnd k => .wireByte k 0x03

/-- The phase of the table's row for a wire byte (R76): END for the end marker, IDLE for a start marker. Every other
instruction decodes alike in every phase. -/
def rowPhase (i : Instr) : Phase :=
  match i with
  | .wireEnd _ => .endMark
  | .crc16 _ | .reset _ | .byte _ _ | .send _ _ | .sendbuf _ _ | .rx _ _ | .canShort _ _ _ | .canFill _ _ _
  | .canProcess _ _ _ | .canOther _ _ | .wireStart1 _ | .wireStart2 _ | .wireStart3 _ => .idle

/-! ## The rows of spec/opcode_table.json as bit patterns (log 5) -/

/-- The bytes of a command whose 32-bit words, the first in bits 31 to 0 of `w`, are `w`'s. The longest command a table
word can spell is CAN_RX_FRAME with `dlc = 8`: 16 bytes. -/
def tableCommandBytes (w : Nat) : List Byte :=
  be32 (BitVec.ofNat 32 w) ++ be32 (BitVec.ofNat 32 (w >>> 32)) ++ be32 (BitVec.ofNat 32 (w >>> 64)) ++
    be32 (BitVec.ofNat 32 (w >>> 96))

/-- What the bits `w` of a table row of `nbits` bits present, and at which interface: up to 8 bits are a wire byte at
endpoint 0; 32 bits and more are a command where they form a well-formed one; the rest are the identifier of a CAN frame
with no data bytes (log 5). -/
def tableInput (p : Params) (nbits w : Nat) : Encoded :=
  if 1 ≤ nbits ∧ nbits ≤ 8 then .wireByte 0 (BitVec.ofNat 8 w)
  else if 32 ≤ nbits then
    match decodeCommand p (tableCommandBytes w) with
    | .ok (_, rest) => .command ((tableCommandBytes w).take (16 - rest.length))
    | .error _ => if w < 536870912 then .canFrame (BitVec.ofNat 29 w) [] else .command (tableCommandBytes w)
  else .canFrame (BitVec.ofNat 29 w) []

/-- The instruction the decoder reads from a table row's bits, in the reference configuration and in phase IDLE. -/
def decodeTableWord (nbits w : Nat) : Option Instr :=
  match decode Params.reference .idle (tableInput Params.reference nbits w) with
  | .ok (i, _) => some i
  | .error _ => none

end Sys2Proof
end

