-- ==== Sys2Proof/Machine/State.lean ====
section
/-! DEFINITION. The state of the block as plain data (10_state.md R20 to R34), the reasons a step can stop, and the state
after power-up. -/

namespace Sys2Proof.Machine

/-- A byte-addressed store (20_memory.md R50): the bytes written so far, by strictly rising address. An address that is
not listed holds no value: nothing has written it (10_state.md R34 "unspecified"; log 9). -/
abbrev Memory := List Host.Cell

/-- The canonical form: addresses strictly rising. -/
abbrev Memory.wf (m : Memory) : Prop := m.Pairwise (fun x y => x.1 < y.1)

/-- The state of one Packet Codec instance (10_state.md R25; log 19) and its two output ports (R24; log 13, log 21). -/
structure Codec where
  /-- False once the endpoint has closed (41_codec.md R127). -/
  isOpen : Bool
  phase : Phase
  /-- `len_width`: width in bytes of the length field, 0 to 3. -/
  lenWidth : Nat
  /-- `len_got`: number of length-field bytes received, 0 to 3. -/
  lenGot : Nat
  /-- `len`: the expected payload length. -/
  len : U24
  /-- `cursor`: number of payload bytes received so far. -/
  cursor : Nat
  /-- The receive buffer, `RX_CAPACITY` bytes. -/
  buf : Memory
  /-- `crc_rx`: the checksum received in the frame. -/
  crcRx : U16
  /-- The port `Codec[k].on_payload`, earliest event first. -/
  onPayload : List (List Byte)
  /-- The port `Codec[k].transmit`, earliest event first. -/
  transmit : List (List Byte)
deriving DecidableEq, Repr

/-- A codec instance at its creation (10_state.md R34). The fields the spec leaves unspecified are 0 (DESIGN CHOICE,
log 8); the receive buffer holds no value (log 9). -/
def Codec.powerUp : Codec where
  isOpen := true
  phase := .idle
  lenWidth := 0
  lenGot := 0
  len := 0
  cursor := 0
  buf := []
  crcRx := 0
  onPayload := []
  transmit := []

/-- The reassembly entry of one key (10_state.md R27). -/
structure Entry where
  active : Bool
  /-- `fill_len`: number of payload bytes accumulated, which is also the next expected offset. -/
  fillLen : Nat
  /-- The reassembly buffer, `CAN_BUF_CAPACITY` bytes. -/
  rbuf : Memory
deriving DecidableEq, Repr

/-- A reassembly entry at power-up (10_state.md R34). -/
def Entry.powerUp : Entry where
  active := false
  fillLen := 0
  rbuf := []

/-- A frame at the CAN interface (30_encoding.md R85). Its dlc is the length of `data` (log 18). -/
structure CanFrame where
  id : CanId
  data : List Byte
deriving DecidableEq, Repr

/-- The reason codes of `Can.fail` (60_exceptions.md R204). -/
inductive FailReason where
  | outOfOrder
  | overflow
  | lengthMismatch
  | noBuffer
  | malformed
deriving DecidableEq, Repr

/-- The status CAN_SEND_BUFFER returns (42_can_tx.md R149). -/
inductive SendStatus where
  | ok
  | abandoned
  | tooLong
deriving DecidableEq, Repr

/-- Where the answers of the CAN bus come from (42_can_tx.md R146: the environment's choice, a free input of the step). The
model's own fields, not the block's state (log 11). -/
structure Bus where
  /-- The answers in store, the next one first. -/
  script : List BusAnswer
  /-- How many answers have been drawn from `Config.busAnswer`, after the script ran out. -/
  drawn : Nat
deriving DecidableEq, Repr

/-- The state of the block, its output ports and what the environment has in store for it. -/
structure State where
  /-- The parameters the block was built with (00_scope.md R6). The model's own field; nothing writes it (log 1). -/
  params : Params
  /-- The codec instances, k = 0 first (10_state.md R20). -/
  codecs : List Codec
  /-- The reassembly entries of the keys 0 to 255 (10_state.md R27). -/
  canRx : Vector Entry 256
  /-- The port `Can.tx_frame` (10_state.md R24; log 13, log 21), as every port below earliest event first. -/
  txFrame : List CanFrame
  /-- The port `Can.deliver`: a key and a complete payload. -/
  deliver : List (Byte × List Byte)
  /-- The port `Can.fail`: a key and the reason. -/
  fail : List (Byte × FailReason)
  /-- The port `Can.other_frame`. -/
  otherFrame : List CanFrame
  /-- The values CRC16 has returned (10_state.md R23; log 12). -/
  crcReturned : List U16
  /-- The statuses CAN_SEND_BUFFER has returned (10_state.md R23; log 12). -/
  sendReturned : List SendStatus
  /-- The answers of the CAN bus (log 11). -/
  bus : Bus
  /-- What the environment presents next, in order (log 3). -/
  input : List Input
deriving DecidableEq, Repr

/-- Why the machine stops with a fault. The block itself never does (60_exceptions.md R200). -/
inductive Fault where
  /-- Raised by `memRead` and `memWrite` for an access that ends past the store: "never performed by any rule" (00_scope.md
  R9, 20_memory.md R58). Only a state outside the invariants of 10_state.md R26 and R28 gets here. Safe: the machine stops
  (log 15). -/
  | outOfBounds (store : Store) (addr : Nat)
deriving DecidableEq, Repr

/-- Why a step gives no meaning to what was presented. -/
inductive Refusal where
  /-- An instruction of the opcode table without a meaning in `exec`. Raised by no arm of this model. Safe. -/
  | notModelled (mnemonic : String)
  /-- Raised by `step` for an ill-formed command or frame (30_encoding.md R72: "A model marks the run as refused"). Safe
  (log 6). -/
  | illFormed (reason : DecodeError)
  /-- Raised by every operation that names a codec instance `k ≥ N_CODEC` (30_encoding.md R72). Safe (log 6). -/
  | noInstance (k : Nat)
  /-- Raised by every operation that names a closed instance: "refused like an ill-formed command" (41_codec.md R127). Safe
  (log 6). -/
  | closedInstance (k : Nat)
deriving DecidableEq, Repr

/-- The block with parameters `p`, right after power-up (10_state.md R34, 70_reset_and_hazards.md R220): every codec in
IDLE, every key inactive, every port empty, and nothing presented yet. -/
def State.powerUp (p : Params) : State where
  params := p
  codecs := List.replicate p.nCodec Codec.powerUp
  canRx := Vector.replicate 256 Entry.powerUp
  txFrame := []
  deliver := []
  fail := []
  otherFrame := []
  crcReturned := []
  sendReturned := []
  bus := { script := [], drawn := 0 }
  input := []

/-- The machine right after reset: power-up in the reference configuration (00_scope.md R6; log 1, log 2). -/
def State.reset : State := State.powerUp Params.reference

end Sys2Proof.Machine
end

