-- ==== Sys2Proof/Machine/Flags.lean ====
section
/-! DEFINITION. The block has no condition flags (10_state.md R31): "The analogue of status flags are the events of rule R24
and the status that CAN_SEND_BUFFER returns." These are the numbers those carry. -/

namespace Sys2Proof.Machine

/-- The reason code a `Can.fail` event carries (60_exceptions.md R204). -/
def FailReason.code (r : FailReason) : Nat :=
  match r with
  | .outOfOrder => 1
  | .overflow => 2
  | .lengthMismatch => 3
  | .noBuffer => 4
  | .malformed => 5

/-- The number of a CAN_SEND_BUFFER status (42_can_tx.md R149, 60_exceptions.md R205). -/
def SendStatus.code (r : SendStatus) : Nat :=
  match r with
  | .ok => 0
  | .abandoned => 1
  | .tooLong => 2

end Sys2Proof.Machine
end

