-- ==== Sys2Proof/Machine/Operands.lean ====
section
/-! DEFINITION. The operand forms: the wire frame (30_encoding.md R75 to R78), the length field a codec accumulates (R77), the
data layouts of FILL and PROCESS frames (R88, R89) and the fragments of a payload (42_can_tx.md R141 to R144). -/

namespace Sys2Proof.Machine

/-- The dlc of a frame: the number of its data bytes (30_encoding.md R85). -/
def CanFrame.dlc (f : CanFrame) : Nat := f.data.length

/-- The width in bytes of the length field that a start marker selects (30_encoding.md R76); none for any other byte. -/
def markerWidth (b : Byte) : Option Nat :=
  if b = 0x02 then some 1 else if b = 0x03 then some 2 else if b = 0x04 then some 3 else none

/-- The length after one more length-field byte: `(len << 8) | b` (41_codec.md R113, 30_encoding.md R77). -/
def pushLength (len : U24) (b : Byte) : U24 := (len <<< 8) ||| b.setWidth 24

/-- The checksum with its high byte received (41_codec.md R117). -/
def crcHigh (b : Byte) : U16 := b.setWidth 16 <<< 8

/-- The checksum with its low byte received too (41_codec.md R118). -/
def crcLow (c : U16) (b : Byte) : U16 := c ||| b.setWidth 16

/-- The start marker and length field of minimal width for a payload of `n` bytes (30_encoding.md R78). -/
def frameHead (n : Nat) : List Byte :=
  if n ≤ 255 then [0x02, BitVec.ofNat 8 n]
  else if n ≤ 65535 then 0x03 :: be16 (BitVec.ofNat 16 n)
  else 0x04 :: be24 (BitVec.ofNat 24 n)

/-- The number in the first two data bytes of a FILL or PROCESS frame: `(d[0] << 8) | d[1]` (43_can_rx.md R164, R172). -/
def dataNumber (d0 d1 : Byte) : Nat := (u16OfBytes d0 d1).toNat

/-- The SHORT frame that carries `p` to `a` (42_can_tx.md R141). -/
def shortFrame (ps : Params) (a : Byte) (p : List Byte) : CanFrame :=
  { id := canId 0 ps.typeShort a, data := p }

/-- The FILL frame at offset `off` of the payload `p` (42_can_tx.md R143). -/
def fillFrame (ps : Params) (a : Byte) (p : List Byte) (off : Nat) : CanFrame :=
  { id := canId 0 ps.typeFill a, data := be16 (BitVec.ofNat 16 off) ++ (p.drop off).take 6 }

/-- The PROCESS frame of a payload of `n` bytes (42_can_tx.md R144). -/
def processFrame (ps : Params) (a : Byte) (n : Nat) : CanFrame :=
  { id := canId 0 ps.typeProcess a, data := be16 (BitVec.ofNat 16 n) }

/-- The FILL frames of `p` at the offsets 0, 6, 12, … below its length, in rising order (42_can_tx.md R143). -/
def fillFrames (ps : Params) (a : Byte) (p : List Byte) : List CanFrame :=
  (List.range ((p.length + 5) / 6)).map (fun i => fillFrame ps a p (6 * i))

/-- The frame sequence `F(a, p)` (42_can_tx.md R141 to R145). -/
def fragment (ps : Params) (a : Byte) (p : List Byte) : List CanFrame :=
  if p.length ≤ 6 then [shortFrame ps a p]
  else if p.length ≤ 65535 then fillFrames ps a p ++ [processFrame ps a p.length]
  else []

end Sys2Proof.Machine
end

