-- ==== Sys2Proof/Machine/Ops.lean ====
section
/-! DEFINITION. The operations the meanings share: the stores (00_scope.md R9, 20_memory.md R58), codec instances, reassembly
entries, output ports, the bus handshake, and what reporting an error does. The block takes no exceptions (60_exceptions.md
R200, R208): `State.failKey` is what stands in that place. -/

namespace Sys2Proof.Machine

/-! ## Stores -/

/-- The byte at address `a`, if something has written it. -/
def Memory.byteAt (m : Memory) (a : Nat) : Option Byte :=
  match m with
  | [] => none
  | (x, b) :: rest => if x = a then some b else Memory.byteAt rest a

/-- The store with byte `b` written at address `a`. -/
def Memory.setByte (m : Memory) (a : Nat) (b : Byte) : Memory :=
  match m with
  | [] => [(a, b)]
  | (x, c) :: rest =>
    if a < x then (a, b) :: (x, c) :: rest
    else if a = x then (a, b) :: rest
    else (x, c) :: Memory.setByte rest a b

/-- The store with the bytes `bs` written from address `a` up. -/
def Memory.setBytes (m : Memory) (a : Nat) (bs : List Byte) : Memory :=
  match bs with
  | [] => m
  | b :: rest => Memory.setBytes (m.setByte a b) (a + 1) rest

/-- What address `a` reads as: a byte nothing has written is a free value (10_state.md R34; log 9). -/
def Memory.load (m : Memory) (store : Store) (a : Nat) : Byte :=
  (m.byteAt a).getD (Config.unwrittenByte store a)

/-- `MemRead(B, addr, n)` (00_scope.md R9) on a store of `cap` bytes. -/
def memRead (store : Store) (cap : Nat) (m : Memory) (addr n : Nat) : Except Fault (List Byte) :=
  if addr + n ≤ cap then .ok ((List.range n).map (fun i => m.load store (addr + i)))
  else .error (.outOfBounds store (addr + n))

/-- `MemWrite(B, addr, n, v)` (00_scope.md R9) on a store of `cap` bytes; n is the length of `v`. -/
def memWrite (store : Store) (cap : Nat) (m : Memory) (addr : Nat) (v : List Byte) : Except Fault Memory :=
  if addr + v.length ≤ cap then .ok (m.setBytes addr v)
  else .error (.outOfBounds store (addr + v.length))

/-! ## Codec instances -/

/-- The state with instance `k` replaced by `c`. -/
def State.setCodec (s : State) (k : Nat) (c : Codec) : State := { s with codecs := s.codecs.set k c }

/-- `TX_PRESENT[k]` (00_scope.md R6; false where the list has no entry, which a legal one has for every instance: log 22). -/
def State.hasTransmit (s : State) (k : Nat) : Bool := (s.params.txPresent[k]?).getD false

/-- Run an operation on instance `k`: refused where there is no such instance (30_encoding.md R72) or it is closed
(41_codec.md R127). -/
def State.onCodec (s : State) (k : Nat) (f : Codec → Except Fault Codec) : Host.Outcome State Fault Refusal :=
  match s.codecs[k]? with
  | none => .refused (.noInstance k)
  | some c =>
    if c.isOpen then
      match f c with
      | .ok c' => .next (s.setCodec k c')
      | .error e => .fault e
    else .refused (.closedInstance k)

/-- `emit Codec[k].on_payload(p)` (10_state.md R24). -/
def Codec.emitPayload (c : Codec) (p : List Byte) : Codec := { c with onPayload := c.onPayload ++ [p] }

/-- `emit Codec[k].transmit(w)` (10_state.md R24). -/
def Codec.emitTransmit (c : Codec) (w : List Byte) : Codec := { c with transmit := c.transmit ++ [w] }

/-! ## Reassembly entries and CAN ports -/

/-- The reassembly entry of key `a` (10_state.md R27). -/
def State.entry (s : State) (a : Byte) : Entry := s.canRx[a.toNat]'a.isLt

/-- The state with the entry of key `a` replaced. -/
def State.setEntry (s : State) (a : Byte) (e : Entry) : State := { s with canRx := s.canRx.set a.toNat e a.isLt }

/-- `discard(a)`: the entry inactive and empty, its bytes left as they are (43_can_rx.md R162). -/
def Entry.discard (e : Entry) : Entry := { e with active := false, fillLen := 0 }

/-- `emit Can.deliver(a, p)`. -/
def State.emitDeliver (s : State) (a : Byte) (p : List Byte) : State := { s with deliver := s.deliver ++ [(a, p)] }

/-- `emit Can.fail(a, r)`. -/
def State.emitFail (s : State) (a : Byte) (r : FailReason) : State := { s with fail := s.fail ++ [(a, r)] }

/-- `emit Can.other_frame(f)`. -/
def State.emitOther (s : State) (f : CanFrame) : State := { s with otherFrame := s.otherFrame ++ [f] }

/-- A reassembly error: `discard(a); emit Can.fail(a, r)` (43_can_rx.md R165, R172; 60_exceptions.md R203). -/
def State.failKey (s : State) (a : Byte) (r : FailReason) : State :=
  (s.setEntry a (s.entry a).discard).emitFail a r

/-! ## The bus handshake (42_can_tx.md R146 to R148) -/

/-- The bus's answer to one attempt, and the bus after it: the next answer in store, else a free value (log 11). -/
def Bus.answer (b : Bus) : BusAnswer × Bus :=
  match b.script with
  | x :: rest => (x, { b with script := rest })
  | [] => (Config.busAnswer b.drawn, { b with drawn := b.drawn + 1 })

/-- Offer one frame at most `attempts` times: whether the bus accepted it, and the bus after the last attempt. -/
def Bus.offer (b : Bus) (attempts : Nat) : Bool × Bus :=
  match attempts with
  | 0 => (false, b)
  | n + 1 =>
    match b.answer with
    | (.accept, b') => (true, b')
    | (.busy, b') => b'.offer n

/-- What offering a frame sequence comes to: the frames accepted, the status, and the bus afterwards. -/
structure Offered where
  sent : List CanFrame
  status : SendStatus
  bus : Bus
deriving DecidableEq, Repr

/-- Offer the frames in order, each at most `attempts` times, and abandon at the first one refused every time
(42_can_tx.md R147, R148). -/
def offerAll (attempts : Nat) (b : Bus) (frames : List CanFrame) : Offered :=
  match frames with
  | [] => { sent := [], status := .ok, bus := b }
  | f :: rest =>
    match b.offer attempts with
    | (true, b') =>
      let r := offerAll attempts b' rest
      { r with sent := f :: r.sent }
    | (false, b') => { sent := [], status := .abandoned, bus := b' }

end Sys2Proof.Machine
end

