-- ==== Sys2Proof/Machine/CanRx.lean ====
section
/-! DEFINITION. CAN reassembly (43_can_rx.md): the handlers of the four frame classes, CAN_RX_FRAME that dispatches to them,
and the classes as instructions of their own. -/

namespace Sys2Proof.Machine

/-- rx_short (43_can_rx.md R163). -/
def rxShort (a : Byte) (d : List Byte) (s : State) : Host.Outcome State Fault Refusal :=
  .next (s.emitDeliver a d)

/-- The end of rx_fill, with `e` the active entry whose next offset is `off` (43_can_rx.md R165, R168, R170). -/
def appendChunk (a : Byte) (e : Entry) (off : Nat) (chunk : List Byte) (s : State) :
    Host.Outcome State Fault Refusal :=
  if s.params.canBufCapacity < off + chunk.length then .next (s.failKey a .overflow)
  else
    match memWrite (.rbuf a) s.params.canBufCapacity e.rbuf off chunk with
    | .ok m => .next (s.setEntry a { e with rbuf := m, fillLen := off + chunk.length })
    | .error f => .fault f

/-- rx_fill (43_can_rx.md R165 to R170). -/
def rxFill (a : Byte) (d : List Byte) (s : State) : Host.Outcome State Fault Refusal :=
  match d with
  | d0 :: d1 :: chunk =>
    let off := dataNumber d0 d1
    let e := s.entry a
    if off = 0 then appendChunk a { e with active := true, fillLen := 0 } 0 chunk s
    else if ¬ e.active then .next s
    else if off ≠ e.fillLen then .next (s.failKey a .outOfOrder)
    else appendChunk a e off chunk s
  | _ => .next (s.failKey a .malformed)

/-- rx_process (43_can_rx.md R171 to R173). -/
def rxProcess (a : Byte) (d : List Byte) (s : State) : Host.Outcome State Fault Refusal :=
  match d with
  | d0 :: d1 :: _ =>
    let lc := dataNumber d0 d1
    let e := s.entry a
    if ¬ e.active then .next (s.emitFail a .noBuffer)
    else if e.fillLen = lc then
      match memRead (.rbuf a) s.params.canBufCapacity e.rbuf 0 lc with
      | .ok payload => .next ((s.setEntry a e.discard).emitDeliver a payload)
      | .error f => .fault f
    else .next (s.failKey a .lengthMismatch)
  | _ => .next (s.failKey a .malformed)

/-- A frame of another packet type (43_can_rx.md R175). -/
def rxOther (id : CanId) (d : List Byte) (s : State) : Host.Outcome State Fault Refusal :=
  .next (s.emitOther { id := id, data := d })

/-- CAN_RX_FRAME (43_can_rx.md R160): the handler its packet type selects. -/
def execRx (id : CanId) (d : List Byte) (s : State) : Host.Outcome State Fault Refusal :=
  if idType id = s.params.typeShort then rxShort (idAddress id) d s
  else if idType id = s.params.typeFill then rxFill (idAddress id) d s
  else if idType id = s.params.typeProcess then rxProcess (idAddress id) d s
  else rxOther id d s

/-- A SHORT frame (43_can_rx.md R163); id[28:16] is ignored (R160). -/
def execCanShort (_hi : BitVec 13) (a : Byte) (d : List Byte) (s : State) : Host.Outcome State Fault Refusal :=
  rxShort a d s

/-- A FILL frame (43_can_rx.md R165). -/
def execCanFill (_hi : BitVec 13) (a : Byte) (d : List Byte) (s : State) : Host.Outcome State Fault Refusal :=
  rxFill a d s

/-- A PROCESS frame (43_can_rx.md R172). -/
def execCanProcess (_hi : BitVec 13) (a : Byte) (d : List Byte) (s : State) : Host.Outcome State Fault Refusal :=
  rxProcess a d s

/-- A frame of any other packet type (43_can_rx.md R175). -/
def execCanOther (id : CanId) (d : List Byte) (s : State) : Host.Outcome State Fault Refusal :=
  rxOther id d s

end Sys2Proof.Machine
end

