-- ==== Sys2Proof/Machine/CanTx.lean ====
section
/-! DEFINITION. The CAN fragmenter (42_can_tx.md). -/

namespace Sys2Proof.Machine

/-- What CAN_SEND_BUFFER comes to (42_can_tx.md R147): TOO_LONG before any attempt, else the frames of `F(a, p)` offered in
order. -/
def sendBuffer (ps : Params) (b : Bus) (a : Byte) (p : List Byte) : Offered :=
  if 65535 < p.length then { sent := [], status := .tooLong, bus := b }
  else offerAll ps.txMaxAttempts b (fragment ps a p)

/-- CAN_SEND_BUFFER (42_can_tx.md R140 to R149): emits the accepted frames and returns the status; no state of `CanRx` is
read or written (R151). -/
def execSendbuf (a : Byte) (p : List Byte) (s : State) : Host.Outcome State Fault Refusal :=
  .next { s with txFrame := s.txFrame ++ (sendBuffer s.params s.bus a p).sent
                 sendReturned := s.sendReturned ++ [(sendBuffer s.params s.bus a p).status]
                 bus := (sendBuffer s.params s.bus a p).bus }

end Sys2Proof.Machine
end

