-- ==== Sys2Proof/Machine/Crc.lean ====
section
/-! DEFINITION. The CRC Engine (40_crc.md). -/

namespace Sys2Proof.Machine

/-- One of the eight rounds of `crc_update` (40_crc.md R103). -/
def crcRound (c : U16) : U16 := if c.getLsbD 15 then (c <<< 1) ^^^ 0x1021 else c <<< 1

/-- `crc_update(c, b)` (40_crc.md R103): the byte enters at bits 15:8, most significant bit first. -/
def crcUpdate (c : U16) (b : Byte) : U16 := Nat.repeat crcRound 8 (c ^^^ (b.setWidth 16 <<< 8))

/-- `crc16(s)` (40_crc.md R101): initial value 0, no final exclusive-or, no reflection (R100). -/
def crc16 (s : List Byte) : U16 := s.foldl crcUpdate 0

/-- CRC16 (40_crc.md R102): returns the checksum; no state, no event. -/
def execCrc16 (bytes : List Byte) (s : State) : Host.Outcome State Fault Refusal :=
  .next { s with crcReturned := s.crcReturned ++ [crc16 bytes] }

end Sys2Proof.Machine
end

