-- ==== Sys2Proof/Machine/Codec.lean ====
section
/-! DEFINITION. The Packet Codec (41_codec.md): CODEC_RESET, CODEC_PROCESS_BYTE phase by phase, CODEC_SEND, and the wire
markers as instructions of their own. -/

namespace Sys2Proof.Machine

/-- Phase IDLE (41_codec.md R112): a start marker selects the length width, any other byte is discarded. -/
def byteIdle (b : Byte) (c : Codec) : Codec :=
  match markerWidth b with
  | some w => { c with lenWidth := w, lenGot := 0, len := 0, phase := .length }
  | none => c

/-- Phase LENGTH (41_codec.md R113, R115). -/
def byteLength (p : Params) (b : Byte) (c : Codec) : Codec :=
  let len := pushLength c.len b
  let c' := { c with len := len, lenGot := c.lenGot + 1 }
  if c.lenGot + 1 = c.lenWidth then
    if p.maxPayload < len.toNat then { c' with phase := .idle }
    else { c' with cursor := 0, phase := if len = 0 then .crcHi else .payload }
  else c'

/-- Phase PAYLOAD (41_codec.md R116): the byte is stored only below `RX_CAPACITY`, and counted always. -/
def bytePayload (p : Params) (k : Nat) (b : Byte) (c : Codec) : Except Fault Codec :=
  let next (buf : Memory) : Codec :=
    { c with buf := buf, cursor := c.cursor + 1,
             phase := if c.cursor + 1 = c.len.toNat then .crcHi else .payload }
  if c.cursor < p.rxCapacity then
    match memWrite (.codecBuf k) p.rxCapacity c.buf c.cursor [b] with
    | .ok buf => .ok (next buf)
    | .error e => .error e
  else .ok (next c.buf)

/-- Phase CRC_HI (41_codec.md R117). -/
def byteCrcHi (b : Byte) (c : Codec) : Codec := { c with crcRx := crcHigh b, phase := .crcLo }

/-- Phase CRC_LO (41_codec.md R118). -/
def byteCrcLo (b : Byte) (c : Codec) : Codec := { c with crcRx := crcLow c.crcRx b, phase := .endMark }

/-- Phase END (41_codec.md R119): IDLE in every case, and the payload delivered when the end marker, the capacity check and
the checksum all pass. -/
def byteEnd (p : Params) (k : Nat) (b : Byte) (c : Codec) : Except Fault Codec :=
  let idle := { c with phase := .idle }
  if b = 0x03 ∧ c.len.toNat ≤ p.rxCapacity then
    match memRead (.codecBuf k) p.rxCapacity c.buf 0 c.len.toNat with
    | .ok payload => if crc16 payload = c.crcRx then .ok (idle.emitPayload payload) else .ok idle
    | .error e => .error e
  else .ok idle

/-- CODEC_PROCESS_BYTE on one codec: the rule its phase selects (41_codec.md R111). -/
def processByte (p : Params) (k : Nat) (b : Byte) (c : Codec) : Except Fault Codec :=
  match c.phase with
  | .idle => .ok (byteIdle b c)
  | .length => .ok (byteLength p b c)
  | .payload => bytePayload p k b c
  | .crcHi => .ok (byteCrcHi b c)
  | .crcLo => .ok (byteCrcLo b c)
  | .endMark => byteEnd p k b c

/-- CODEC_RESET (41_codec.md R110). The other fields keep their values (DESIGN CHOICE the rule allows, log 10). -/
def execReset (k : Nat) (s : State) : Host.Outcome State Fault Refusal :=
  s.onCodec k (fun c => .ok { c with phase := .idle })

/-- CODEC_PROCESS_BYTE (41_codec.md R111 to R119). -/
def execByte (k : Nat) (b : Byte) (s : State) : Host.Outcome State Fault Refusal :=
  s.onCodec k (processByte s.params k b)

/-- The wire frame of the payload `p`, with the length field of minimal width (30_encoding.md R75, R78; 41_codec.md R126). -/
def wireFrame (p : List Byte) : List Byte := frameHead p.length ++ p ++ be16 (crc16 p) ++ [0x03]

/-- CODEC_SEND (41_codec.md R125): one `transmit` event with the whole frame, none for a payload over `MAX_PAYLOAD` or
without a transmit port; no receive field is read or written. -/
def execSend (k : Nat) (p : List Byte) (s : State) : Host.Outcome State Fault Refusal :=
  s.onCodec k (fun c =>
    if s.params.maxPayload < p.length then .ok c
    else if s.hasTransmit k then .ok (c.emitTransmit (wireFrame p))
    else .ok c)

/-- The byte 0x02 at the endpoint of instance `k`: in IDLE the start marker of a 1-byte length (41_codec.md R112). In any
other phase it is that phase's byte (R111; log 17). -/
def execWireStart1 (k : Nat) (s : State) : Host.Outcome State Fault Refusal :=
  s.onCodec k (processByte s.params k 0x02)

/-- The byte 0x03 at the endpoint of instance `k`: in IDLE the start marker of a 2-byte length (41_codec.md R112). -/
def execWireStart2 (k : Nat) (s : State) : Host.Outcome State Fault Refusal :=
  s.onCodec k (processByte s.params k 0x03)

/-- The byte 0x04 at the endpoint of instance `k`: in IDLE the start marker of a 3-byte length (41_codec.md R112). -/
def execWireStart3 (k : Nat) (s : State) : Host.Outcome State Fault Refusal :=
  s.onCodec k (processByte s.params k 0x04)

/-- The byte 0x03 at the endpoint of instance `k`: in END the end marker (41_codec.md R119). -/
def execWireEnd (k : Nat) (s : State) : Host.Outcome State Fault Refusal :=
  s.onCodec k (processByte s.params k 0x03)

end Sys2Proof.Machine
end

