-- ==== Sys2Proof/Machine/Dispatch.lean ====
section
/-! DEFINITION. exec: one arm per constructor of Instr, each a direct call of its meaning. -/

namespace Sys2Proof.Machine

def exec (i : Instr) (s : State) : Host.Outcome State Fault Refusal :=
  match i with
  | .crc16 bytes => Sys2Proof.Machine.execCrc16 bytes s
  | .reset k => Sys2Proof.Machine.execReset k s
  | .byte k b => Sys2Proof.Machine.execByte k b s
  | .send k p => Sys2Proof.Machine.execSend k p s
  | .sendbuf a p => Sys2Proof.Machine.execSendbuf a p s
  | .rx id d => Sys2Proof.Machine.execRx id d s
  | .canShort hi a d => Sys2Proof.Machine.execCanShort hi a d s
  | .canFill hi a d => Sys2Proof.Machine.execCanFill hi a d s
  | .canProcess hi a d => Sys2Proof.Machine.execCanProcess hi a d s
  | .canOther id d => Sys2Proof.Machine.execCanOther id d s
  | .wireStart1 k => Sys2Proof.Machine.execWireStart1 k s
  | .wireStart2 k => Sys2Proof.Machine.execWireStart2 k s
  | .wireStart3 k => Sys2Proof.Machine.execWireStart3 k s
  | .wireEnd k => Sys2Proof.Machine.execWireEnd k s

end Sys2Proof.Machine
end

