-- ==== Sys2Proof/Machine/Endpoint.lean ====
section
/-! DEFINITION. The lifetime of a codec instance (41_codec.md R127): what the environment does to an endpoint, beside
presenting operations. -/

namespace Sys2Proof.Machine

/-- The endpoint of instance `k` closes: the partial frame is discarded, no event is emitted and the instance ends
(41_codec.md R127). Closing a closed endpoint changes nothing (log 14). -/
def closeEndpoint (k : Nat) (s : State) : Host.Outcome State Fault Refusal :=
  match s.codecs[k]? with
  | none => .refused (.noInstance k)
  | some c => .next (s.setCodec k { c with isOpen := false, phase := .idle })

/-- A new connection on the endpoint of instance `k`: a new instance in IDLE, with ports of its own that are empty
(41_codec.md R127, 10_state.md R34; log 14). -/
def openEndpoint (k : Nat) (s : State) : Host.Outcome State Fault Refusal :=
  match s.codecs[k]? with
  | none => .refused (.noInstance k)
  | some _ => .next (s.setCodec k Codec.powerUp)

end Sys2Proof.Machine
end

