-- ==== Sys2Proof/Machine/Fetch.lean ====
section
/-! DEFINITION. Taking the next item of the input queue (10_state.md R23; log 3). The block fetches no instruction from
memory (20_memory.md R65). -/

namespace Sys2Proof.Machine

/-- The phase that decides how what is presented reads: that of the codec a wire byte goes to (30_encoding.md R76). -/
def State.phaseFor (s : State) (x : Encoded) : Phase :=
  match x with
  | .wireByte k _ =>
    match s.codecs[k]? with
    | some c => c.phase
    | none => .idle
  | .command _ | .canFrame _ _ => .idle

/-- The queue after the first command of a byte sequence is taken: the bytes left over, if any, come next (log 7). -/
def restOfInput (left : List Byte) (rest : List Input) : List Input :=
  match left with
  | [] => rest
  | _ :: _ => .present (.command left) :: rest

/-- The instruction that `x`, at the head of the queue, presents, and the state with it taken off the queue. -/
def State.fetch (s : State) (x : Encoded) (rest : List Input) : Except DecodeError (Instr × State) :=
  match decode s.params (s.phaseFor x) x with
  | .ok (i, left) => .ok (i, { s with input := restOfInput left rest })
  | .error e => .error e

/-- The state with what the bits of a table row present put at the head of the queue (log 5). -/
def State.withTableInput (s : State) (nbits w : Nat) : State :=
  { s with input := .present (tableInput s.params nbits w) :: s.input }

end Sys2Proof.Machine
end

