-- ==== Sys2Proof/Machine/Step.lean ====
section
/-! DEFINITION. One step: the operation the environment presents next, as one atomic step (00_scope.md R2, 20_memory.md
R59). -/

namespace Sys2Proof.Machine

/-- One step. With nothing presented the state does not change (log 24); an ill-formed command is refused (30_encoding.md
R72; log 6). -/
def step (s : State) : Host.Outcome State Fault Refusal :=
  match s.input with
  | [] => .next s
  | .present x :: rest =>
    match s.fetch x rest with
    | .ok (i, s') => exec i s'
    | .error e => .refused (.illFormed e)
  | .closeEndpoint k :: rest => closeEndpoint k { s with input := rest }
  | .openEndpoint k :: rest => openEndpoint k { s with input := rest }

/-- The state with the bits of a table row presented next, so that the very next step runs them (log 3, log 5). -/
def State.withFetchWord (s : State) (nbits w : Nat) : State := s.withTableInput nbits w

end Sys2Proof.Machine
end

