-- ==== Sys2Proof/Safety.lean ====
section
/-! DEFINITION. The terms the statements use: the invariants of 10_state.md R26 and R28, runs of several operations, and the
formats of the spec written as it gives them, as numbers and byte sequences. -/

namespace Sys2Proof.Machine

/-! ## Invariants -/

/-- The field invariants of a codec (10_state.md R25, R26), for parameters `p`. -/
structure Codec.Inv (p : Params) (c : Codec) : Prop where
  /-- The receive buffer is in canonical form. -/
  bufWf : c.buf.wf
  /-- No byte is stored at an address `≥ RX_CAPACITY` (20_memory.md R58). -/
  bufWithin : ∀ x ∈ c.buf, x.1 < p.rxCapacity
  /-- `len_width` and `len_got` are 0 to 3 (R25). -/
  widths : c.lenWidth ≤ 3 ∧ c.lenGot ≤ 3
  /-- `cursor` is 0 to 16,777,215 (R25), in every phase. Where a frame is being received the phases below bound it by
  `MAX_PAYLOAD`. -/
  cursorRange : c.cursor ≤ 16777215
  /-- R26, first line; and the length received so far fits the bytes received so far. -/
  lengthPhase : c.phase = .length → 1 ≤ c.lenWidth ∧ c.lenGot < c.lenWidth ∧ c.len.toNat < 256 ^ c.lenGot
  /-- R26, second line. -/
  payloadPhase : c.phase = .payload → c.len.toNat ≤ p.maxPayload ∧ c.cursor < c.len.toNat
  /-- R26, third line. -/
  trailerPhase : c.phase = .crcHi ∨ c.phase = .crcLo ∨ c.phase = .endMark →
    c.len.toNat ≤ p.maxPayload ∧ c.cursor = c.len.toNat
  /-- R26, fourth line: the bytes below `min(cursor, RX_CAPACITY)` have been received. -/
  stored : c.phase ≠ .idle → c.phase ≠ .length →
    ∀ a, a < c.cursor → a < p.rxCapacity → (c.buf.byteAt a).isSome
  /-- In CRC_LO the low byte of `crc_rx` is still to come (41_codec.md R117). -/
  crcLoPhase : c.phase = .crcLo → c.crcRx.extractLsb' 0 8 = 0
  /-- A closed instance holds no partial frame (41_codec.md R127). -/
  closedIdle : c.isOpen = false → c.phase = .idle

/-- The invariants of a reassembly entry (10_state.md R27, R28). -/
structure Entry.Inv (p : Params) (e : Entry) : Prop where
  rbufWf : e.rbuf.wf
  rbufWithin : ∀ x ∈ e.rbuf, x.1 < p.canBufCapacity
  inactiveEmpty : e.active = false → e.fillLen = 0
  fillRange : e.fillLen ≤ p.canBufCapacity
  stored : ∀ a, a < e.fillLen → (e.rbuf.byteAt a).isSome

/-- The invariant of the machine: legal parameters, `N_CODEC` instances, and R26 and R28 for each unit. -/
structure State.Inv (s : State) : Prop where
  paramsLegal : s.params.legal
  codecCount : s.codecs.length = s.params.nCodec
  codecInv : ∀ c ∈ s.codecs, c.Inv s.params
  entryInv : ∀ a, (s.entry a).Inv s.params

/-- `c` is the codec instance `k` of `s`, and it is open. -/
abbrev State.openAt (s : State) (k : Nat) (c : Codec) : Prop := s.codecs[k]? = some c ∧ c.isOpen = true

/-- The first `pl.length` bytes of the store are the bytes `pl`. -/
abbrev Memory.holds (m : Memory) (pl : List Byte) : Prop := ∀ i, i < pl.length → m.byteAt i = pl[i]?

/-! ## Runs -/

/-- The operations `is` one after another, stopping at the first fault or refusal. -/
def execAll (is : List Instr) (s : State) : Host.Outcome State Fault Refusal :=
  match is with
  | [] => .next s
  | i :: rest =>
    match exec i s with
    | .next s' => execAll rest s'
    | .fault f => .fault f
    | .refused r => .refused r

/-- `feed c<k>, bytes` (30_encoding.md R94): one CODEC_PROCESS_BYTE for each byte, first byte first. -/
def feed (k : Nat) (bytes : List Byte) : List Instr := bytes.map (fun b => .byte k b)

/-- One CAN_RX_FRAME for each frame, in order (30_encoding.md R94, `canframes`). -/
def replay (frames : List CanFrame) : List Instr := frames.map (fun f => .rx f.id f.data)

/-! ## Units (10_state.md R20) -/

/-- The unit that an operation is an operation of (the CRC Engine counted as one). -/
inductive Agent where
  | crcEngine
  | codec (k : Nat)
  | canTx
  | canRx
deriving DecidableEq, Repr

/-- The unit of each operation (10_state.md R23). -/
def agentOf (i : Instr) : Agent :=
  match i with
  | .crc16 _ => .crcEngine
  | .reset k | .byte k _ | .send k _ | .wireStart1 k | .wireStart2 k | .wireStart3 k | .wireEnd k => .codec k
  | .sendbuf _ _ => .canTx
  | .rx _ _ | .canShort _ _ _ | .canFill _ _ _ | .canProcess _ _ _ | .canOther _ _ => .canRx

/-! ## The spec's formats as numbers and byte sequences -/

namespace Spec

/-- The number whose bytes are `bs`, most significant first (30_encoding.md R77). -/
def number (bs : List Byte) : Nat := bs.foldl (fun n b => 256 * n + b.toNat) 0

/-- `n` as `w` bytes, most significant first (00_scope.md R8). -/
def bytesOf (w n : Nat) : List Byte := (List.range w).map (fun i => BitVec.ofNat 8 (n / 256 ^ (w - 1 - i)))

/-- The start marker of a length field of `w` bytes (30_encoding.md R76). -/
def marker (w : Nat) : Byte := if w = 1 then 0x02 else if w = 2 then 0x03 else 0x04

/-- The minimal width of the length field for a payload of `n` bytes (30_encoding.md R78). -/
def minimalWidth (n : Nat) : Nat := if n ≤ 255 then 1 else if n ≤ 65535 then 2 else 3

/-- The byte sequence `[M] ++ Lfield ++ P ++ [hi, lo] ++ [e]` of 30_encoding.md R75 with a length field of `w` bytes. -/
def wire (w : Nat) (p : List Byte) (hi lo e : Byte) : List Byte :=
  [marker w] ++ bytesOf w p.length ++ p ++ [hi, lo] ++ [e]

/-- `C[15:8]` (30_encoding.md R75). -/
def crcHiOf (c : U16) : Byte := BitVec.ofNat 8 (c.toNat / 256)

/-- `C[7:0]` (30_encoding.md R75). -/
def crcLoOf (c : U16) : Byte := BitVec.ofNat 8 c.toNat

/-- The wire frame of the payload `p` with a length field of `w` bytes (30_encoding.md R75). -/
def wireFrameOf (w : Nat) (p : List Byte) : List Byte := wire w p (crcHiOf (crc16 p)) (crcLoOf (crc16 p)) 0x03

/-- The identifier `(type << 8) | a` (30_encoding.md R84). -/
def idOf (type a : Byte) : CanId := BitVec.ofNat 29 (256 * type.toNat + a.toNat)

/-- The FILL frame at offset `off` of `p` (42_can_tx.md R143). -/
def fillAt (ps : Params) (a : Byte) (p : List Byte) (off : Nat) : CanFrame :=
  { id := idOf ps.typeFill a, data := bytesOf 2 off ++ (p.drop off).take (min 6 (p.length - off)) }

/-- The FILL frames of `p`: one for each offset 0, 6, 12, … below its length, in increasing order (42_can_tx.md R143). -/
def fills (ps : Params) (a : Byte) (p : List Byte) : List CanFrame :=
  ((List.range p.length).filter (fun off => off % 6 == 0)).map (fillAt ps a p)

/-- The PROCESS frame of a payload of `n` bytes (42_can_tx.md R144). -/
def commit (ps : Params) (a : Byte) (n : Nat) : CanFrame := { id := idOf ps.typeProcess a, data := bytesOf 2 n }

/-- `F(a, p)` (42_can_tx.md R141 to R145). -/
def frames (ps : Params) (a : Byte) (p : List Byte) : List CanFrame :=
  if p.length ≤ 6 then [{ id := idOf ps.typeShort a, data := p }]
  else if p.length ≤ 65535 then fills ps a p ++ [commit ps a p.length]
  else []

/-- The packet type `id[15:8]` (30_encoding.md R84). -/
def typeOf (id : CanId) : Nat := id.toNat / 256 % 256

/-- The controller address `id[7:0]` (30_encoding.md R84). -/
def addressOf (id : CanId) : Nat := id.toNat % 256

/-- `i` presents a SHORT frame of key `a` with data `d`: as a frame, or as CAN_RX_FRAME (30_encoding.md R86). -/
def IsShort (p : Params) (i : Instr) (a : Byte) (d : List Byte) : Prop :=
  (∃ hi, i = .canShort hi a d) ∨ (∃ id, i = .rx id d ∧ addressOf id = a.toNat ∧ typeOf id = p.typeShort.toNat)

/-- `i` presents a FILL frame of key `a` with data `d`. -/
def IsFill (p : Params) (i : Instr) (a : Byte) (d : List Byte) : Prop :=
  (∃ hi, i = .canFill hi a d) ∨ (∃ id, i = .rx id d ∧ addressOf id = a.toNat ∧ typeOf id = p.typeFill.toNat)

/-- `i` presents a PROCESS frame of key `a` with data `d`. -/
def IsProcess (p : Params) (i : Instr) (a : Byte) (d : List Byte) : Prop :=
  (∃ hi, i = .canProcess hi a d) ∨ (∃ id, i = .rx id d ∧ addressOf id = a.toNat ∧ typeOf id = p.typeProcess.toNat)

/-- `i` presents a frame of another packet type. -/
def IsOther (p : Params) (i : Instr) (id : CanId) (d : List Byte) : Prop :=
  i = .canOther id d ∨
  (i = .rx id d ∧ typeOf id ≠ p.typeShort.toNat ∧ typeOf id ≠ p.typeFill.toNat ∧ typeOf id ≠ p.typeProcess.toNat)

/-- The number of bytes a command with header number `h` needs (30_encoding.md R71), the bytes of the command being `bs`. -/
def commandLength (h : Nat) (bs : List Byte) : Nat :=
  if h % 8 = 1 ∨ h % 8 = 2 then 4
  else if h % 8 = 5 then 8 + h / 65536 % 256
  else 8 + number ((bs.drop 4).take 4)

/-- The conditions of 30_encoding.md R72 on the bytes of a command, with `h` the number its first four bytes are. -/
def IllFormed (p : Params) (bs : List Byte) : Prop :=
  bs.length < 4 ∨
  (let h := number (bs.take 4)
   let op := h % 8
   let inst := h / 256 % 256
   let arg8 := h / 65536 % 256
   op = 6 ∨ op = 7 ∨ h / 8 % 32 ≠ 0 ∨ h / 16777216 ≠ 0 ∨
   ((op = 1 ∨ op = 2 ∨ op = 3) ∧ p.nCodec ≤ inst) ∨
   ((op = 0 ∨ op = 4 ∨ op = 5) ∧ inst ≠ 0) ∨
   ((op = 0 ∨ op = 1 ∨ op = 3) ∧ arg8 ≠ 0) ∨
   (op = 5 ∧ 8 < arg8) ∨
   (op = 5 ∧ 8 ≤ bs.length ∧ number ((bs.drop 4).take 4) / 536870912 ≠ 0) ∨
   bs.length < commandLength h bs)

/-- The polynomial over GF(2) with the bits `f 0`, …, `f (n - 1)` as coefficients of `x^0`, …, `x^(n - 1)`. -/
def HasBits (f : Nat → Bool) (n : Nat) (q : Polynomial (ZMod 2)) : Prop :=
  ∀ i, q.coeff i = if i < n ∧ f i = true then 1 else 0

/-- Coefficient `i` of the message polynomial of `s` (40_crc.md R104): bit 0 of the last byte is that of `x^0`, bit 7 of
the first byte that of the highest power. -/
def messageBit (s : List Byte) (i : Nat) : Bool := ((s.reverse[i / 8]?).getD 0).getLsbD (i % 8)

/-- The state with codec instance `k` replaced by `c`, everything else as it was. -/
def withCodec (s : State) (k : Nat) (c : Codec) : State := { s with codecs := s.codecs.set k c }

/-- `discard(a)` and then `emit Can.fail(a, r)` (43_can_rx.md R162, R165, R172), everything else as it was. -/
def failed (s : State) (a : Byte) (r : FailReason) : State :=
  { s with canRx := s.canRx.set a.toNat { s.entry a with active := false, fillLen := 0 } a.isLt
           fail := s.fail ++ [(a, r)] }

/-- `i` presents a frame of key `a` to `CanRx`: a SHORT, FILL or PROCESS frame, or CAN_RX_FRAME with that address. -/
def Keyed (i : Instr) (a : Byte) : Prop :=
  (∃ hi d, i = .canShort hi a d ∨ i = .canFill hi a d ∨ i = .canProcess hi a d) ∨
  (∃ id d, i = .rx id d ∧ addressOf id = a.toNat)

end Spec

end Sys2Proof.Machine
end

