-- ==== Sys2Proof/Laws/State.lean ====
section
/-! SUPPORT. What each record update of the state leaves and changes: one lemma per field per update. -/

namespace Sys2Proof.Machine

/-! ## State.setCodec -/

@[simp] theorem State.setCodec_params (s : State) (k : Nat) (c : Codec) :
    (s.setCodec k c).params = s.params := rfl

@[simp] theorem State.setCodec_codecs (s : State) (k : Nat) (c : Codec) :
    (s.setCodec k c).codecs = s.codecs.set k c := rfl

@[simp] theorem State.setCodec_canRx (s : State) (k : Nat) (c : Codec) :
    (s.setCodec k c).canRx = s.canRx := rfl

@[simp] theorem State.setCodec_txFrame (s : State) (k : Nat) (c : Codec) :
    (s.setCodec k c).txFrame = s.txFrame := rfl

@[simp] theorem State.setCodec_deliver (s : State) (k : Nat) (c : Codec) :
    (s.setCodec k c).deliver = s.deliver := rfl

@[simp] theorem State.setCodec_fail (s : State) (k : Nat) (c : Codec) :
    (s.setCodec k c).fail = s.fail := rfl

@[simp] theorem State.setCodec_otherFrame (s : State) (k : Nat) (c : Codec) :
    (s.setCodec k c).otherFrame = s.otherFrame := rfl

@[simp] theorem State.setCodec_crcReturned (s : State) (k : Nat) (c : Codec) :
    (s.setCodec k c).crcReturned = s.crcReturned := rfl

@[simp] theorem State.setCodec_sendReturned (s : State) (k : Nat) (c : Codec) :
    (s.setCodec k c).sendReturned = s.sendReturned := rfl

@[simp] theorem State.setCodec_bus (s : State) (k : Nat) (c : Codec) :
    (s.setCodec k c).bus = s.bus := rfl

@[simp] theorem State.setCodec_input (s : State) (k : Nat) (c : Codec) :
    (s.setCodec k c).input = s.input := rfl

/-! ## State.setEntry -/

@[simp] theorem State.setEntry_params (s : State) (a : Byte) (e : Entry) :
    (s.setEntry a e).params = s.params := rfl

@[simp] theorem State.setEntry_codecs (s : State) (a : Byte) (e : Entry) :
    (s.setEntry a e).codecs = s.codecs := rfl

@[simp] theorem State.setEntry_canRx (s : State) (a : Byte) (e : Entry) :
    (s.setEntry a e).canRx = s.canRx.set a.toNat e a.isLt := rfl

@[simp] theorem State.setEntry_txFrame (s : State) (a : Byte) (e : Entry) :
    (s.setEntry a e).txFrame = s.txFrame := rfl

@[simp] theorem State.setEntry_deliver (s : State) (a : Byte) (e : Entry) :
    (s.setEntry a e).deliver = s.deliver := rfl

@[simp] theorem State.setEntry_fail (s : State) (a : Byte) (e : Entry) :
    (s.setEntry a e).fail = s.fail := rfl

@[simp] theorem State.setEntry_otherFrame (s : State) (a : Byte) (e : Entry) :
    (s.setEntry a e).otherFrame = s.otherFrame := rfl

@[simp] theorem State.setEntry_crcReturned (s : State) (a : Byte) (e : Entry) :
    (s.setEntry a e).crcReturned = s.crcReturned := rfl

@[simp] theorem State.setEntry_sendReturned (s : State) (a : Byte) (e : Entry) :
    (s.setEntry a e).sendReturned = s.sendReturned := rfl

@[simp] theorem State.setEntry_bus (s : State) (a : Byte) (e : Entry) :
    (s.setEntry a e).bus = s.bus := rfl

@[simp] theorem State.setEntry_input (s : State) (a : Byte) (e : Entry) :
    (s.setEntry a e).input = s.input := rfl

/-! ## State.emitDeliver -/

@[simp] theorem State.emitDeliver_params (s : State) (a : Byte) (p : List Byte) :
    (s.emitDeliver a p).params = s.params := rfl

@[simp] theorem State.emitDeliver_codecs (s : State) (a : Byte) (p : List Byte) :
    (s.emitDeliver a p).codecs = s.codecs := rfl

@[simp] theorem State.emitDeliver_canRx (s : State) (a : Byte) (p : List Byte) :
    (s.emitDeliver a p).canRx = s.canRx := rfl

@[simp] theorem State.emitDeliver_txFrame (s : State) (a : Byte) (p : List Byte) :
    (s.emitDeliver a p).txFrame = s.txFrame := rfl

@[simp] theorem State.emitDeliver_deliver (s : State) (a : Byte) (p : List Byte) :
    (s.emitDeliver a p).deliver = s.deliver ++ [(a, p)] := rfl

@[simp] theorem State.emitDeliver_fail (s : State) (a : Byte) (p : List Byte) :
    (s.emitDeliver a p).fail = s.fail := rfl

@[simp] theorem State.emitDeliver_otherFrame (s : State) (a : Byte) (p : List Byte) :
    (s.emitDeliver a p).otherFrame = s.otherFrame := rfl

@[simp] theorem State.emitDeliver_crcReturned (s : State) (a : Byte) (p : List Byte) :
    (s.emitDeliver a p).crcReturned = s.crcReturned := rfl

@[simp] theorem State.emitDeliver_sendReturned (s : State) (a : Byte) (p : List Byte) :
    (s.emitDeliver a p).sendReturned = s.sendReturned := rfl

@[simp] theorem State.emitDeliver_bus (s : State) (a : Byte) (p : List Byte) :
    (s.emitDeliver a p).bus = s.bus := rfl

@[simp] theorem State.emitDeliver_input (s : State) (a : Byte) (p : List Byte) :
    (s.emitDeliver a p).input = s.input := rfl

/-! ## State.emitFail -/

@[simp] theorem State.emitFail_params (s : State) (a : Byte) (r : FailReason) :
    (s.emitFail a r).params = s.params := rfl

@[simp] theorem State.emitFail_codecs (s : State) (a : Byte) (r : FailReason) :
    (s.emitFail a r).codecs = s.codecs := rfl

@[simp] theorem State.emitFail_canRx (s : State) (a : Byte) (r : FailReason) :
    (s.emitFail a r).canRx = s.canRx := rfl

@[simp] theorem State.emitFail_txFrame (s : State) (a : Byte) (r : FailReason) :
    (s.emitFail a r).txFrame = s.txFrame := rfl

@[simp] theorem State.emitFail_deliver (s : State) (a : Byte) (r : FailReason) :
    (s.emitFail a r).deliver = s.deliver := rfl

@[simp] theorem State.emitFail_fail (s : State) (a : Byte) (r : FailReason) :
    (s.emitFail a r).fail = s.fail ++ [(a, r)] := rfl

@[simp] theorem State.emitFail_otherFrame (s : State) (a : Byte) (r : FailReason) :
    (s.emitFail a r).otherFrame = s.otherFrame := rfl

@[simp] theorem State.emitFail_crcReturned (s : State) (a : Byte) (r : FailReason) :
    (s.emitFail a r).crcReturned = s.crcReturned := rfl

@[simp] theorem State.emitFail_sendReturned (s : State) (a : Byte) (r : FailReason) :
    (s.emitFail a r).sendReturned = s.sendReturned := rfl

@[simp] theorem State.emitFail_bus (s : State) (a : Byte) (r : FailReason) :
    (s.emitFail a r).bus = s.bus := rfl

@[simp] theorem State.emitFail_input (s : State) (a : Byte) (r : FailReason) :
    (s.emitFail a r).input = s.input := rfl

/-! ## State.emitOther -/

@[simp] theorem State.emitOther_params (s : State) (f : CanFrame) :
    (s.emitOther f).params = s.params := rfl

@[simp] theorem State.emitOther_codecs (s : State) (f : CanFrame) :
    (s.emitOther f).codecs = s.codecs := rfl

@[simp] theorem State.emitOther_canRx (s : State) (f : CanFrame) :
    (s.emitOther f).canRx = s.canRx := rfl

@[simp] theorem State.emitOther_txFrame (s : State) (f : CanFrame) :
    (s.emitOther f).txFrame = s.txFrame := rfl

@[simp] theorem State.emitOther_deliver (s : State) (f : CanFrame) :
    (s.emitOther f).deliver = s.deliver := rfl

@[simp] theorem State.emitOther_fail (s : State) (f : CanFrame) :
    (s.emitOther f).fail = s.fail := rfl

@[simp] theorem State.emitOther_otherFrame (s : State) (f : CanFrame) :
    (s.emitOther f).otherFrame = s.otherFrame ++ [f] := rfl

@[simp] theorem State.emitOther_crcReturned (s : State) (f : CanFrame) :
    (s.emitOther f).crcReturned = s.crcReturned := rfl

@[simp] theorem State.emitOther_sendReturned (s : State) (f : CanFrame) :
    (s.emitOther f).sendReturned = s.sendReturned := rfl

@[simp] theorem State.emitOther_bus (s : State) (f : CanFrame) :
    (s.emitOther f).bus = s.bus := rfl

@[simp] theorem State.emitOther_input (s : State) (f : CanFrame) :
    (s.emitOther f).input = s.input := rfl

/-! ## State.failKey -/

@[simp] theorem State.failKey_params (s : State) (a : Byte) (r : FailReason) :
    (s.failKey a r).params = s.params := rfl

@[simp] theorem State.failKey_codecs (s : State) (a : Byte) (r : FailReason) :
    (s.failKey a r).codecs = s.codecs := rfl

@[simp] theorem State.failKey_canRx (s : State) (a : Byte) (r : FailReason) :
    (s.failKey a r).canRx = s.canRx.set a.toNat (s.entry a).discard a.isLt := rfl

@[simp] theorem State.failKey_txFrame (s : State) (a : Byte) (r : FailReason) :
    (s.failKey a r).txFrame = s.txFrame := rfl

@[simp] theorem State.failKey_deliver (s : State) (a : Byte) (r : FailReason) :
    (s.failKey a r).deliver = s.deliver := rfl

@[simp] theorem State.failKey_fail (s : State) (a : Byte) (r : FailReason) :
    (s.failKey a r).fail = s.fail ++ [(a, r)] := rfl

@[simp] theorem State.failKey_otherFrame (s : State) (a : Byte) (r : FailReason) :
    (s.failKey a r).otherFrame = s.otherFrame := rfl

@[simp] theorem State.failKey_crcReturned (s : State) (a : Byte) (r : FailReason) :
    (s.failKey a r).crcReturned = s.crcReturned := rfl

@[simp] theorem State.failKey_sendReturned (s : State) (a : Byte) (r : FailReason) :
    (s.failKey a r).sendReturned = s.sendReturned := rfl

@[simp] theorem State.failKey_bus (s : State) (a : Byte) (r : FailReason) :
    (s.failKey a r).bus = s.bus := rfl

@[simp] theorem State.failKey_input (s : State) (a : Byte) (r : FailReason) :
    (s.failKey a r).input = s.input := rfl

/-! ## State.withTableInput -/

@[simp] theorem State.withTableInput_params (s : State) (nbits w : Nat) :
    (s.withTableInput nbits w).params = s.params := rfl

@[simp] theorem State.withTableInput_codecs (s : State) (nbits w : Nat) :
    (s.withTableInput nbits w).codecs = s.codecs := rfl

@[simp] theorem State.withTableInput_canRx (s : State) (nbits w : Nat) :
    (s.withTableInput nbits w).canRx = s.canRx := rfl

@[simp] theorem State.withTableInput_txFrame (s : State) (nbits w : Nat) :
    (s.withTableInput nbits w).txFrame = s.txFrame := rfl

@[simp] theorem State.withTableInput_deliver (s : State) (nbits w : Nat) :
    (s.withTableInput nbits w).deliver = s.deliver := rfl

@[simp] theorem State.withTableInput_fail (s : State) (nbits w : Nat) :
    (s.withTableInput nbits w).fail = s.fail := rfl

@[simp] theorem State.withTableInput_otherFrame (s : State) (nbits w : Nat) :
    (s.withTableInput nbits w).otherFrame = s.otherFrame := rfl

@[simp] theorem State.withTableInput_crcReturned (s : State) (nbits w : Nat) :
    (s.withTableInput nbits w).crcReturned = s.crcReturned := rfl

@[simp] theorem State.withTableInput_sendReturned (s : State) (nbits w : Nat) :
    (s.withTableInput nbits w).sendReturned = s.sendReturned := rfl

@[simp] theorem State.withTableInput_bus (s : State) (nbits w : Nat) :
    (s.withTableInput nbits w).bus = s.bus := rfl

@[simp] theorem State.withTableInput_input (s : State) (nbits w : Nat) :
    (s.withTableInput nbits w).input = .present (tableInput s.params nbits w) :: s.input := rfl

/-! ## Codec.emitPayload -/

@[simp] theorem Codec.emitPayload_isOpen (c : Codec) (p : List Byte) :
    (c.emitPayload p).isOpen = c.isOpen := rfl

@[simp] theorem Codec.emitPayload_phase (c : Codec) (p : List Byte) :
    (c.emitPayload p).phase = c.phase := rfl

@[simp] theorem Codec.emitPayload_lenWidth (c : Codec) (p : List Byte) :
    (c.emitPayload p).lenWidth = c.lenWidth := rfl

@[simp] theorem Codec.emitPayload_lenGot (c : Codec) (p : List Byte) :
    (c.emitPayload p).lenGot = c.lenGot := rfl

@[simp] theorem Codec.emitPayload_len (c : Codec) (p : List Byte) :
    (c.emitPayload p).len = c.len := rfl

@[simp] theorem Codec.emitPayload_cursor (c : Codec) (p : List Byte) :
    (c.emitPayload p).cursor = c.cursor := rfl

@[simp] theorem Codec.emitPayload_buf (c : Codec) (p : List Byte) :
    (c.emitPayload p).buf = c.buf := rfl

@[simp] theorem Codec.emitPayload_crcRx (c : Codec) (p : List Byte) :
    (c.emitPayload p).crcRx = c.crcRx := rfl

@[simp] theorem Codec.emitPayload_onPayload (c : Codec) (p : List Byte) :
    (c.emitPayload p).onPayload = c.onPayload ++ [p] := rfl

@[simp] theorem Codec.emitPayload_transmit (c : Codec) (p : List Byte) :
    (c.emitPayload p).transmit = c.transmit := rfl

/-! ## Codec.emitTransmit -/

@[simp] theorem Codec.emitTransmit_isOpen (c : Codec) (w : List Byte) :
    (c.emitTransmit w).isOpen = c.isOpen := rfl

@[simp] theorem Codec.emitTransmit_phase (c : Codec) (w : List Byte) :
    (c.emitTransmit w).phase = c.phase := rfl

@[simp] theorem Codec.emitTransmit_lenWidth (c : Codec) (w : List Byte) :
    (c.emitTransmit w).lenWidth = c.lenWidth := rfl

@[simp] theorem Codec.emitTransmit_lenGot (c : Codec) (w : List Byte) :
    (c.emitTransmit w).lenGot = c.lenGot := rfl

@[simp] theorem Codec.emitTransmit_len (c : Codec) (w : List Byte) :
    (c.emitTransmit w).len = c.len := rfl

@[simp] theorem Codec.emitTransmit_cursor (c : Codec) (w : List Byte) :
    (c.emitTransmit w).cursor = c.cursor := rfl

@[simp] theorem Codec.emitTransmit_buf (c : Codec) (w : List Byte) :
    (c.emitTransmit w).buf = c.buf := rfl

@[simp] theorem Codec.emitTransmit_crcRx (c : Codec) (w : List Byte) :
    (c.emitTransmit w).crcRx = c.crcRx := rfl

@[simp] theorem Codec.emitTransmit_onPayload (c : Codec) (w : List Byte) :
    (c.emitTransmit w).onPayload = c.onPayload := rfl

@[simp] theorem Codec.emitTransmit_transmit (c : Codec) (w : List Byte) :
    (c.emitTransmit w).transmit = c.transmit ++ [w] := rfl

/-! ## Entry.discard -/

@[simp] theorem Entry.discard_active (e : Entry) :
    e.discard.active = false := rfl

@[simp] theorem Entry.discard_fillLen (e : Entry) :
    e.discard.fillLen = 0 := rfl

@[simp] theorem Entry.discard_rbuf (e : Entry) :
    e.discard.rbuf = e.rbuf := rfl

/-! ## State.powerUp (10_state.md R34) -/

@[simp] theorem State.powerUp_params (p : Params) :
    (State.powerUp p).params = p := rfl

@[simp] theorem State.powerUp_codecs (p : Params) :
    (State.powerUp p).codecs = List.replicate p.nCodec Codec.powerUp := rfl

@[simp] theorem State.powerUp_canRx (p : Params) :
    (State.powerUp p).canRx = Vector.replicate 256 Entry.powerUp := rfl

@[simp] theorem State.powerUp_txFrame (p : Params) :
    (State.powerUp p).txFrame = [] := rfl

@[simp] theorem State.powerUp_deliver (p : Params) :
    (State.powerUp p).deliver = [] := rfl

@[simp] theorem State.powerUp_fail (p : Params) :
    (State.powerUp p).fail = [] := rfl

@[simp] theorem State.powerUp_otherFrame (p : Params) :
    (State.powerUp p).otherFrame = [] := rfl

@[simp] theorem State.powerUp_crcReturned (p : Params) :
    (State.powerUp p).crcReturned = [] := rfl

@[simp] theorem State.powerUp_sendReturned (p : Params) :
    (State.powerUp p).sendReturned = [] := rfl

@[simp] theorem State.powerUp_input (p : Params) :
    (State.powerUp p).input = [] := rfl

/-! ## Reassembly entries and codec instances -/

@[simp] theorem State.entry_setEntry_self (s : State) (a : Byte) (e : Entry) : (s.setEntry a e).entry a = e := by
  simp [State.entry]

theorem State.entry_setEntry_ne (s : State) {a b : Byte} (e : Entry) (h : b ≠ a) :
    (s.setEntry a e).entry b = s.entry b := by
  have : a.toNat ≠ b.toNat := fun hn => h (BitVec.eq_of_toNat_eq hn.symm)
  simp [State.entry, Vector.getElem_set_ne _ _ this]

@[simp] theorem State.entry_emitDeliver (s : State) (a b : Byte) (p : List Byte) :
    (s.emitDeliver a p).entry b = s.entry b := rfl

@[simp] theorem State.entry_emitFail (s : State) (a b : Byte) (r : FailReason) :
    (s.emitFail a r).entry b = s.entry b := rfl

@[simp] theorem State.entry_emitOther (s : State) (f : CanFrame) (b : Byte) :
    (s.emitOther f).entry b = s.entry b := rfl

@[simp] theorem State.entry_setCodec (s : State) (k : Nat) (c : Codec) (b : Byte) :
    (s.setCodec k c).entry b = s.entry b := rfl

@[simp] theorem State.entry_failKey_self (s : State) (a : Byte) (r : FailReason) :
    (s.failKey a r).entry a = (s.entry a).discard := by
  simp [State.failKey]

theorem State.entry_failKey_ne (s : State) {a b : Byte} (r : FailReason) (h : b ≠ a) :
    (s.failKey a r).entry b = s.entry b := by
  simp [State.failKey, State.entry_setEntry_ne s _ h]

@[simp] theorem State.entry_powerUp (p : Params) (a : Byte) : (State.powerUp p).entry a = Entry.powerUp := by
  simp [State.entry]

@[simp] theorem State.setEntry_entry (s : State) (a : Byte) : s.setEntry a (s.entry a) = s := by
  simp [State.setEntry, State.entry]

/-- Two updates of one codec instance: the later one counts. -/
@[simp] theorem State.setCodec_setCodec (s : State) (k : Nat) (c d : Codec) :
    (s.setCodec k c).setCodec k d = s.setCodec k d := by
  simp [State.setCodec]

/-- Writing back the codec instance that is there changes nothing. -/
theorem State.setCodec_same {s : State} {k : Nat} {c : Codec} (h : s.codecs[k]? = some c) : s.setCodec k c = s := by
  obtain ⟨hk, hc⟩ := List.getElem?_eq_some_iff.mp h
  subst hc
  simp [State.setCodec]

theorem State.getElem_setCodec_self {s : State} {k : Nat} {c : Codec} (h : s.codecs[k]? = some c) (d : Codec) :
    (s.setCodec k d).codecs[k]? = some d := by
  obtain ⟨hk, _⟩ := List.getElem?_eq_some_iff.mp h
  simp [hk]

theorem State.getElem_setCodec_ne (s : State) {k j : Nat} (d : Codec) (h : k ≠ j) :
    (s.setCodec k d).codecs[j]? = s.codecs[j]? := by
  simp [h]

end Sys2Proof.Machine
end

