-- ==== Sys2Proof/Laws/Memory.lean ====
section
/-! SUPPORT. The stores: a read after a write, the canonical form, and what `memRead` and `memWrite` can answer. -/

namespace Sys2Proof.Machine

@[simp] theorem Memory.byteAt_nil (a : Nat) : Memory.byteAt [] a = none := rfl

/-- A read after a write of one byte. -/
theorem Memory.byteAt_setByte (m : Memory) (a : Nat) (b : Byte) (x : Nat) :
    (m.setByte a b).byteAt x = if x = a then some b else m.byteAt x := by
  induction m with
  | nil => simp [Memory.setByte, Memory.byteAt, eq_comm (a := a)]
  | cons y rest ih =>
    obtain ⟨y, c⟩ := y
    unfold Memory.setByte
    split
    · simp only [Memory.byteAt, eq_comm (a := a)]
    · split
      · rename_i h; subst h
        by_cases h : x = a
        · simp [Memory.byteAt, h]
        · simp [Memory.byteAt, h, Ne.symm h]
      · simp only [Memory.byteAt, ih]
        split <;> split <;> simp_all

@[simp] theorem Memory.byteAt_setByte_self (m : Memory) (a : Nat) (b : Byte) : (m.setByte a b).byteAt a = some b := by
  simp [Memory.byteAt_setByte]

theorem Memory.byteAt_setByte_ne (m : Memory) {a x : Nat} (b : Byte) (h : x ≠ a) :
    (m.setByte a b).byteAt x = m.byteAt x := by
  simp [Memory.byteAt_setByte, h]

/-- A read after a write of several bytes. -/
theorem Memory.byteAt_setBytes (bs : List Byte) (m : Memory) (a x : Nat) :
    (m.setBytes a bs).byteAt x = if a ≤ x ∧ x < a + bs.length then bs[x - a]? else m.byteAt x := by
  induction bs generalizing m a with
  | nil =>
    have : ¬ (a ≤ x ∧ x < a + ([] : List Byte).length) := by simp
    simp only [Memory.setBytes, if_neg this]
  | cons b rest ih =>
    simp only [Memory.setBytes, ih, Memory.byteAt_setByte, List.length_cons]
    by_cases h1 : x = a
    · subst h1; simp
    · by_cases h2 : a + 1 ≤ x ∧ x < a + 1 + rest.length
      · have h3 : a ≤ x ∧ x < a + (rest.length + 1) := by omega
        obtain ⟨n, hn⟩ : ∃ n, x - a = n + 1 := ⟨x - a - 1, by omega⟩
        have hn' : x - (a + 1) = n := by omega
        rw [if_pos h2, if_pos h3, hn, hn', List.getElem?_cons_succ]
      · have h3 : ¬ (a ≤ x ∧ x < a + (rest.length + 1)) := by omega
        rw [if_neg h2, if_neg h3, if_neg h1]

/-- Every entry of the store after a write is the written one or was there before. -/
theorem Memory.mem_setByte {m : Memory} {a : Nat} {b : Byte} {x : Host.Cell} (h : x ∈ m.setByte a b) :
    x = (a, b) ∨ x ∈ m := by
  induction m with
  | nil => exact .inl (by simpa [Memory.setByte] using h)
  | cons y rest ih =>
    obtain ⟨y, c⟩ := y
    unfold Memory.setByte at h
    split at h
    · simpa using h
    · split at h
      · rcases List.mem_cons.mp h with h | h
        · exact .inl h
        · exact .inr (List.mem_cons_of_mem _ h)
      · rcases List.mem_cons.mp h with h | h
        · exact .inr (h ▸ List.mem_cons_self)
        · exact (ih h).imp id (List.mem_cons_of_mem _)

/-- Writing a byte keeps the canonical form. -/
theorem Memory.setByte_wf {m : Memory} (h : m.wf) (a : Nat) (b : Byte) : (m.setByte a b).wf := by
  induction m with
  | nil => simp [Memory.wf, Memory.setByte]
  | cons y rest ih =>
    obtain ⟨y, c⟩ := y
    obtain ⟨hy, hr⟩ := List.pairwise_cons.mp h
    unfold Memory.setByte
    split
    · rename_i hlt
      refine List.pairwise_cons.mpr ⟨fun x hx => ?_, h⟩
      rcases List.mem_cons.mp hx with rfl | hx
      · exact hlt
      · exact Nat.lt_trans hlt (hy x hx)
    · split
      · rename_i _ heq
        exact List.pairwise_cons.mpr ⟨fun x hx => heq ▸ hy x hx, hr⟩
      · rename_i hlt hne
        refine List.pairwise_cons.mpr ⟨fun x hx => ?_, ih hr⟩
        rcases Memory.mem_setByte hx with rfl | hx
        · show y < a; omega
        · exact hy x hx

/-- Writing bytes keeps the canonical form. -/
theorem Memory.setBytes_wf {m : Memory} (h : m.wf) (a : Nat) (bs : List Byte) : (m.setBytes a bs).wf := by
  induction bs generalizing m a with
  | nil => exact h
  | cons b rest ih => exact ih (Memory.setByte_wf h a b) (a + 1)

/-- Writing bytes within a bound keeps the store within it. -/
theorem Memory.setBytes_within {m : Memory} {cap a : Nat} {bs : List Byte} (hm : ∀ x ∈ m, x.1 < cap)
    (hb : a + bs.length ≤ cap) : ∀ x ∈ m.setBytes a bs, x.1 < cap := by
  induction bs generalizing m a with
  | nil => exact hm
  | cons b rest ih =>
    simp only [List.length_cons] at hb
    refine ih (fun x hx => ?_) (by omega)
    rcases Memory.mem_setByte hx with rfl | hx
    · show a < cap; omega
    · exact hm x hx

/-- All that `memWrite` can do: the bytes written where they fit the store, a fault where they do not. -/
theorem memWrite_cases (store : Store) (cap : Nat) (m : Memory) (addr : Nat) (v : List Byte) :
    (addr + v.length ≤ cap ∧ memWrite store cap m addr v = .ok (m.setBytes addr v)) ∨
    (cap < addr + v.length ∧ memWrite store cap m addr v = .error (.outOfBounds store (addr + v.length))) := by
  unfold memWrite
  split
  · exact .inl ⟨‹_›, rfl⟩
  · exact .inr ⟨by omega, rfl⟩

theorem memWrite_ok {store : Store} {cap : Nat} {m : Memory} {addr : Nat} {v : List Byte}
    (h : addr + v.length ≤ cap) : memWrite store cap m addr v = .ok (m.setBytes addr v) := if_pos h

theorem memRead_ok {store : Store} {cap : Nat} {m : Memory} {addr n : Nat} (h : addr + n ≤ cap) :
    memRead store cap m addr n = .ok ((List.range n).map (fun i => m.load store (addr + i))) := if_pos h

/-- All that `memRead` can do: the `n` bytes where they lie in the store, a fault where they do not. -/
theorem memRead_cases (store : Store) (cap : Nat) (m : Memory) (addr n : Nat) :
    (addr + n ≤ cap ∧ memRead store cap m addr n = .ok ((List.range n).map (fun i => m.load store (addr + i)))) ∨
    (cap < addr + n ∧ memRead store cap m addr n = .error (.outOfBounds store (addr + n))) := by
  unfold memRead
  split
  · exact .inl ⟨‹_›, rfl⟩
  · exact .inr ⟨by omega, rfl⟩

/-- A byte that something has written reads as it was written, whatever the free values are. -/
theorem Memory.load_of_byteAt {m : Memory} {a : Nat} {b : Byte} (h : m.byteAt a = some b) (store : Store) :
    m.load store a = b := by
  simp [Memory.load, h]

/-- The first bytes of a store that holds `pl` read as `pl`. -/
theorem Memory.holds_load {m : Memory} {pl : List Byte} (h : m.holds pl) (store : Store) :
    (List.range pl.length).map (fun i => m.load store i) = pl := by
  refine List.ext_getElem (by simp) (fun i h1 h2 => ?_)
  have := h i h2
  rw [List.getElem?_eq_getElem h2] at this
  simp [Memory.load_of_byteAt this]

/-- Reading a store that holds `pl` gives `pl`. -/
theorem memRead_holds {m : Memory} {pl : List Byte} {cap : Nat} (h : m.holds pl) (store : Store) (hc : pl.length ≤ cap) :
    memRead store cap m 0 pl.length = .ok pl := by
  rw [memRead_ok (by omega)]
  simp only [Nat.zero_add, Memory.holds_load h]

end Sys2Proof.Machine
end

