-- ==== Sys2Proof/Laws/Ops.lean ====
section
/-! SUPPORT. For each shared operation, one lemma that says all it can do. -/

namespace Sys2Proof.Machine

/-! ## Codec instances -/

/-- An operation on an open instance answers with the new codec in its place. -/
theorem State.onCodec_ok {s : State} {k : Nat} {c c' : Codec} {f : Codec → Except Fault Codec} (h : s.openAt k c)
    (hf : f c = .ok c') : s.onCodec k f = .next (s.setCodec k c') := by
  simp [State.onCodec, h.1, h.2, hf]

/-- If an operation on instance `k` answers a next state, the instance is there and open and only it has changed. -/
theorem State.onCodec_next {s t : State} {k : Nat} {f : Codec → Except Fault Codec}
    (h : s.onCodec k f = .next t) : ∃ c c', s.openAt k c ∧ f c = .ok c' ∧ t = s.setCodec k c' := by
  unfold State.onCodec at h
  split at h
  · cases h
  · rename_i c hc
    split at h
    · rename_i ho
      split at h
      · rename_i c' hf
        injection h with h
        exact ⟨c, c', ⟨hc, ho⟩, hf, h.symm⟩
      · cases h
    · cases h

/-- An operation on instance `k` faults only where its codec step does. -/
theorem State.onCodec_fault {s : State} {k : Nat} {f : Codec → Except Fault Codec} {e : Fault}
    (h : s.onCodec k f = .fault e) : ∃ c, s.openAt k c ∧ f c = .error e := by
  unfold State.onCodec at h
  split at h
  · cases h
  · rename_i c hc
    split at h
    · rename_i ho
      split at h
      · cases h
      · rename_i e' hf
        injection h with h
        exact ⟨c, ⟨hc, ho⟩, h ▸ hf⟩
    · cases h

theorem State.onCodec_none {s : State} {k : Nat} (f : Codec → Except Fault Codec) (h : s.codecs[k]? = none) :
    s.onCodec k f = .refused (.noInstance k) := by
  simp [State.onCodec, h]

theorem State.onCodec_closed {s : State} {k : Nat} {c : Codec} (f : Codec → Except Fault Codec)
    (h : s.codecs[k]? = some c) (hc : c.isOpen = false) : s.onCodec k f = .refused (.closedInstance k) := by
  simp [State.onCodec, h, hc]

/-! ## The codec's byte step -/

/-- All that phase IDLE does. -/
theorem byteIdle_cases (b : Byte) (c : Codec) :
    (∃ w, markerWidth b = some w ∧ byteIdle b c = { c with lenWidth := w, lenGot := 0, len := 0, phase := .length }) ∨
    (markerWidth b = none ∧ byteIdle b c = c) := by
  unfold byteIdle
  split
  · exact .inl ⟨_, ‹_›, rfl⟩
  · exact .inr ⟨‹_›, rfl⟩

/-- A start marker selects a width of 1 to 3 bytes. -/
theorem markerWidth_range {b : Byte} {w : Nat} (h : markerWidth b = some w) : 1 ≤ w ∧ w ≤ 3 := by
  unfold markerWidth at h
  split at h
  · injection h; omega
  · split at h
    · injection h; omega
    · split at h
      · injection h; omega
      · cases h

/-- All that phase PAYLOAD does: it never faults, and stores the byte exactly where the buffer has room. -/
theorem bytePayload_eq (p : Params) (k : Nat) (b : Byte) (c : Codec) :
    bytePayload p k b c = .ok
      { c with buf := if c.cursor < p.rxCapacity then c.buf.setByte c.cursor b else c.buf
               cursor := c.cursor + 1
               phase := if c.cursor + 1 = c.len.toNat then .crcHi else .payload } := by
  unfold bytePayload
  by_cases h : c.cursor < p.rxCapacity
  · rw [if_pos h, memWrite_ok (by simpa using h), if_pos h]; rfl
  · rw [if_neg h, if_neg h]

/-- The payload that END reads from the receive buffer of instance `k` (41_codec.md R119). -/
def Codec.received (c : Codec) (k : Nat) : List Byte :=
  (List.range c.len.toNat).map (fun i => c.buf.load (.codecBuf k) i)

/-- All that phase END does: it never faults, and delivers exactly where all three checks pass. -/
theorem byteEnd_eq (p : Params) (k : Nat) (b : Byte) (c : Codec) :
    byteEnd p k b c = .ok
      (if b = 0x03 ∧ c.len.toNat ≤ p.rxCapacity ∧ crc16 (c.received k) = c.crcRx then
        { c with phase := .idle, onPayload := c.onPayload ++ [c.received k] }
      else { c with phase := .idle }) := by
  unfold byteEnd
  by_cases h : b = 0x03 ∧ c.len.toNat ≤ p.rxCapacity
  · rw [memRead_ok (by omega)]
    simp only [h, and_self, true_and, if_true, Nat.zero_add]
    show (if crc16 (c.received k) = c.crcRx then _ else _) = _
    split <;> rfl
  · have : ¬ (b = 0x03 ∧ c.len.toNat ≤ p.rxCapacity ∧ crc16 (c.received k) = c.crcRx) :=
      fun ⟨h1, h2, _⟩ => h ⟨h1, h2⟩
    rw [if_neg h, if_neg this]

/-- A codec that holds the payload `pl` receives it, whatever the free values are. -/
theorem Codec.received_holds {c : Codec} {pl : List Byte} (hl : c.len.toNat = pl.length) (h : c.buf.holds pl) (k : Nat) :
    c.received k = pl := by
  unfold Codec.received
  rw [hl, Memory.holds_load h]

/-- CODEC_PROCESS_BYTE never faults (41_codec.md R111), leaves the transmit port and the instance's life alone, and emits
at most one `on_payload` event, in phase END only (R123). -/
theorem processByte_cases (p : Params) (k : Nat) (b : Byte) (c : Codec) :
    ∃ c', processByte p k b c = .ok c' ∧ c'.isOpen = c.isOpen ∧ c'.transmit = c.transmit ∧
      (c'.onPayload = c.onPayload ∨ (c.phase = .endMark ∧ c'.onPayload = c.onPayload ++ [c.received k])) := by
  unfold processByte
  split
  · refine ⟨_, rfl, ?_⟩
    rcases byteIdle_cases b c with ⟨w, _, h⟩ | ⟨_, h⟩ <;> rw [h] <;> simp
  · refine ⟨_, rfl, ?_⟩
    unfold byteLength
    simp only
    split <;> (try split) <;> simp
  · exact ⟨_, bytePayload_eq p k b c, rfl, rfl, .inl rfl⟩
  · exact ⟨_, rfl, rfl, rfl, .inl rfl⟩
  · exact ⟨_, rfl, rfl, rfl, .inl rfl⟩
  · refine ⟨_, byteEnd_eq p k b c, ?_⟩
    split
    · exact ⟨rfl, rfl, .inr ⟨‹_›, rfl⟩⟩
    · exact ⟨rfl, rfl, .inl rfl⟩

/-! ## The bus handshake -/

/-- An answer in store is given first. -/
@[simp] theorem Bus.answer_cons (x : BusAnswer) (rest : List BusAnswer) (n : Nat) :
    Bus.answer { script := x :: rest, drawn := n } = (x, { script := rest, drawn := n }) := rfl

/-- With nothing in store the answer is a free value. -/
@[simp] theorem Bus.answer_nil (n : Nat) :
    Bus.answer { script := [], drawn := n } = (Config.busAnswer n, { script := [], drawn := n + 1 }) := rfl

@[simp] theorem Bus.offer_zero (b : Bus) : b.offer 0 = (false, b) := rfl

/-- An accepted attempt ends the offer. -/
theorem Bus.offer_accept (rest : List BusAnswer) (n m : Nat) :
    Bus.offer { script := .accept :: rest, drawn := n } (m + 1) = (true, { script := rest, drawn := n }) := rfl

/-- A busy attempt leaves one attempt less. -/
theorem Bus.offer_busy (rest : List BusAnswer) (n m : Nat) :
    Bus.offer { script := .busy :: rest, drawn := n } (m + 1) = Bus.offer { script := rest, drawn := n } m := rfl

/-- Fewer than `m` busy answers and then an accept: the frame is accepted. -/
theorem Bus.offer_accepted (j m : Nat) (h : j < m) (rest : List BusAnswer) (n : Nat) :
    Bus.offer { script := List.replicate j .busy ++ .accept :: rest, drawn := n } m =
      (true, { script := rest, drawn := n }) := by
  induction j generalizing m with
  | zero => obtain ⟨m, rfl⟩ : ∃ k, m = k + 1 := ⟨m - 1, by omega⟩; rfl
  | succ j ih =>
    obtain ⟨m, rfl⟩ : ∃ k, m = k + 1 := ⟨m - 1, by omega⟩
    rw [List.replicate_succ, List.cons_append, Bus.offer_busy]
    exact ih m (by omega)

/-- `m` busy answers: the frame is refused on every attempt. -/
theorem Bus.offer_refused (m : Nat) (rest : List BusAnswer) (n : Nat) :
    Bus.offer { script := List.replicate m .busy ++ rest, drawn := n } m = (false, { script := rest, drawn := n }) := by
  induction m with
  | zero => rfl
  | succ m ih => rw [List.replicate_succ, List.cons_append, Bus.offer_busy, ih]

/-- All that offering a frame sequence can do: all of it is sent and the status is OK, or a proper initial part is and the
status is ABANDONED (42_can_tx.md R147, R148). -/
theorem offerAll_cases (attempts : Nat) (b : Bus) (fs : List CanFrame) :
    ((offerAll attempts b fs).status = .ok ∧ (offerAll attempts b fs).sent = fs) ∨
    ((offerAll attempts b fs).status = .abandoned ∧ ∃ n, n < fs.length ∧ (offerAll attempts b fs).sent = fs.take n) := by
  induction fs generalizing b with
  | nil => exact .inl ⟨rfl, rfl⟩
  | cons f rest ih =>
    unfold offerAll
    split
    · rename_i b' _
      rcases ih b' with ⟨h1, h2⟩ | ⟨h1, n, hn, h2⟩
      · exact .inl ⟨h1, by simp [h2]⟩
      · exact .inr ⟨h1, n + 1, by simpa using hn, by simp [h2]⟩
    · exact .inr ⟨rfl, 0, by simp, rfl⟩

/-! ## Reassembly -/

/-- The entry after `chunk` is stored at offset `off`. -/
def Entry.append (e : Entry) (off : Nat) (chunk : List Byte) : Entry :=
  { e with rbuf := e.rbuf.setBytes off chunk, fillLen := off + chunk.length }

/-- All that the end of rx_fill does: OVERFLOW, or the chunk stored (43_can_rx.md R168, R170). It never faults. -/
theorem appendChunk_eq (a : Byte) (e : Entry) (off : Nat) (chunk : List Byte) (s : State) :
    appendChunk a e off chunk s = .next
      (if s.params.canBufCapacity < off + chunk.length then s.failKey a .overflow
       else s.setEntry a (e.append off chunk)) := by
  unfold appendChunk
  split
  · rfl
  · rw [memWrite_ok (by omega)]; rfl

/-- The state after a FILL frame (43_can_rx.md R165): what `rxFill` answers. -/
def fillResult (a : Byte) (d : List Byte) (s : State) : State :=
  match d with
  | d0 :: d1 :: chunk =>
    if dataNumber d0 d1 = 0 then
      if s.params.canBufCapacity < chunk.length then s.failKey a .overflow
      else s.setEntry a { active := true, fillLen := chunk.length, rbuf := (s.entry a).rbuf.setBytes 0 chunk }
    else if (s.entry a).active = false then s
    else if dataNumber d0 d1 ≠ (s.entry a).fillLen then s.failKey a .outOfOrder
    else if s.params.canBufCapacity < dataNumber d0 d1 + chunk.length then s.failKey a .overflow
    else s.setEntry a ((s.entry a).append (dataNumber d0 d1) chunk)
  | _ => s.failKey a .malformed

/-- All that rx_fill does; it never faults. -/
theorem rxFill_eq (a : Byte) (d : List Byte) (s : State) : rxFill a d s = .next (fillResult a d s) := by
  match d with
  | [] => rfl
  | [_] => rfl
  | d0 :: d1 :: chunk =>
    simp only [rxFill, fillResult, appendChunk_eq, Bool.not_eq_true]
    repeat' split
    all_goals first | rfl | simp_all [Entry.append]

/-- All that rx_process can do (43_can_rx.md R171 to R173). Only an entry longer than its buffer, which R28 excludes, makes it
fault. -/
theorem rxProcess_cases (a : Byte) (d : List Byte) (s : State) :
    (d.length < 2 ∧ rxProcess a d s = .next (s.failKey a .malformed)) ∨
    ∃ d0 d1 rest, d = d0 :: d1 :: rest ∧
      (((s.entry a).active = false ∧ rxProcess a d s = .next (s.emitFail a .noBuffer)) ∨
       ((s.entry a).active = true ∧ (s.entry a).fillLen ≠ dataNumber d0 d1 ∧
          rxProcess a d s = .next (s.failKey a .lengthMismatch)) ∨
       ((s.entry a).active = true ∧ (s.entry a).fillLen = dataNumber d0 d1 ∧ dataNumber d0 d1 ≤ s.params.canBufCapacity ∧
          rxProcess a d s = .next ((s.setEntry a (s.entry a).discard).emitDeliver a
            ((List.range (dataNumber d0 d1)).map (fun i => (s.entry a).rbuf.load (.rbuf a) i)))) ∨
       ((s.entry a).active = true ∧ s.params.canBufCapacity < (s.entry a).fillLen ∧
          ∃ f, rxProcess a d s = .fault f)) := by
  match d with
  | [] => exact .inl ⟨by simp, rfl⟩
  | [_] => exact .inl ⟨by simp, rfl⟩
  | d0 :: d1 :: rest =>
    refine .inr ⟨d0, d1, rest, rfl, ?_⟩
    simp only [rxProcess, Bool.not_eq_true]
    by_cases ha : (s.entry a).active = false
    · exact .inl ⟨ha, by rw [if_pos ha]⟩
    · rw [if_neg ha]
      have ha' : (s.entry a).active = true := by simpa using ha
      by_cases hl : (s.entry a).fillLen = dataNumber d0 d1
      · rw [if_pos hl]
        rcases memRead_cases (.rbuf a) s.params.canBufCapacity (s.entry a).rbuf 0 (dataNumber d0 d1)
          with ⟨hc, h⟩ | ⟨hc, h⟩
        · refine .inr (.inr (.inl ⟨ha', hl, by omega, ?_⟩))
          rw [h]; simp
        · refine .inr (.inr (.inr ⟨ha', by omega, ?_⟩))
          rw [h]; exact ⟨_, rfl⟩
      · exact .inr (.inl ⟨ha', hl, by rw [if_neg hl]⟩)

/-! ## The step -/

/-- All that a step can do: nothing with an empty queue, the decoded instruction, a refusal of an ill-formed command, or an
endpoint closing or opening. -/
theorem step_cases (s : State) :
    (s.input = [] ∧ step s = .next s) ∨
    (∃ x rest i left, s.input = .present x :: rest ∧ decode s.params (s.phaseFor x) x = .ok (i, left) ∧
      step s = exec i { s with input := restOfInput left rest }) ∨
    (∃ x rest e, s.input = .present x :: rest ∧ decode s.params (s.phaseFor x) x = .error e ∧
      step s = .refused (.illFormed e)) ∨
    (∃ k rest, s.input = .closeEndpoint k :: rest ∧ step s = closeEndpoint k { s with input := rest }) ∨
    (∃ k rest, s.input = .openEndpoint k :: rest ∧ step s = openEndpoint k { s with input := rest }) := by
  unfold step
  split
  · exact .inl ⟨‹_›, rfl⟩
  · rename_i x rest h
    unfold State.fetch
    rcases hd : decode s.params (s.phaseFor x) x with e | ⟨i, left⟩
    · exact .inr (.inr (.inl ⟨x, rest, e, h, hd, rfl⟩))
    · exact .inr (.inl ⟨x, rest, i, left, h, hd, rfl⟩)
  · exact .inr (.inr (.inr (.inl ⟨_, _, ‹_›, rfl⟩)))
  · exact .inr (.inr (.inr (.inr ⟨_, _, ‹_›, rfl⟩)))

end Sys2Proof.Machine
end

