-- ==== Sys2Proof/Laws/Exec.lean ====
section
/-! SUPPORT. What the operations of each unit can do, once for all of them: an operation on a codec instance is a total function
of that instance, and a frame for `CanRx` is a function of one entry that appends to the ports. -/

namespace Sys2Proof.Machine

/-- Every operation on codec instance `k` is a total function of that instance and the parameters, which keeps the instance's
life and only appends to its ports. -/
theorem exec_codec {i : Instr} {k : Nat} (h : agentOf i = .codec k) (p : Params) :
    ∃ g : Codec → Codec,
      (∀ s : State, s.params = p → exec i s = s.onCodec k (fun c => .ok (g c))) ∧
      ∀ c, (g c).isOpen = c.isOpen ∧ c.onPayload <+: (g c).onPayload ∧ c.transmit <+: (g c).transmit := by
  have byte : ∀ b, ∃ g : Codec → Codec, (∀ c, processByte p k b c = .ok (g c)) ∧
      ∀ c, (g c).isOpen = c.isOpen ∧ c.onPayload <+: (g c).onPayload ∧ c.transmit <+: (g c).transmit := by
    intro b
    refine ⟨fun c => (processByte_cases p k b c).choose, fun c => ?_, fun c => ?_⟩
    · exact (processByte_cases p k b c).choose_spec.1
    · obtain ⟨_, h1, h2, h3⟩ := (processByte_cases p k b c).choose_spec
      refine ⟨h1, ?_, h2 ▸ List.prefix_refl _⟩
      rcases h3 with h3 | ⟨_, h3⟩
      · exact h3 ▸ List.prefix_refl _
      · exact ⟨_, h3.symm⟩
  have lift : ∀ b, (∀ s : State, exec i s = s.onCodec k (processByte s.params k b)) →
      ∃ g : Codec → Codec, (∀ s : State, s.params = p → exec i s = s.onCodec k (fun c => .ok (g c))) ∧
        ∀ c, (g c).isOpen = c.isOpen ∧ c.onPayload <+: (g c).onPayload ∧ c.transmit <+: (g c).transmit := by
    intro b he
    obtain ⟨g, h1, h2⟩ := byte b
    exact ⟨g, fun s hs => by rw [he s, hs, funext h1], h2⟩
  cases i with
  | reset j =>
    injection h with h; subst h
    exact ⟨fun c => { c with phase := .idle }, fun _ _ => rfl, fun c => ⟨rfl, List.prefix_refl _, List.prefix_refl _⟩⟩
  | send j w =>
    injection h with h; subst h
    refine ⟨fun c => if p.maxPayload < w.length then c
      else if (p.txPresent[j]?).getD false then c.emitTransmit (wireFrame w) else c, ?_, ?_⟩
    · rintro s rfl
      show s.onCodec j _ = s.onCodec j _
      congr 1
      funext c
      simp only [State.hasTransmit]
      split
      · rfl
      · split <;> simp_all
    · intro c
      dsimp only
      split
      · exact ⟨rfl, List.prefix_refl _, List.prefix_refl _⟩
      · split
        · exact ⟨rfl, List.prefix_refl _, ⟨_, rfl⟩⟩
        · exact ⟨rfl, List.prefix_refl _, List.prefix_refl _⟩
  | byte j b => injection h with h; subst h; exact lift b (fun _ => rfl)
  | wireStart1 j => injection h with h; subst h; exact lift 0x02 (fun _ => rfl)
  | wireStart2 j => injection h with h; subst h; exact lift 0x03 (fun _ => rfl)
  | wireStart3 j => injection h with h; subst h; exact lift 0x04 (fun _ => rfl)
  | wireEnd j => injection h with h; subst h; exact lift 0x03 (fun _ => rfl)
  | crc16 _ => cases h
  | sendbuf _ _ => cases h
  | rx _ _ => cases h
  | canShort _ _ _ => cases h
  | canFill _ _ _ => cases h
  | canProcess _ _ _ => cases h
  | canOther _ _ => cases h

/-- What a frame makes of its key's entry, and the events it appends. -/
structure RxEffect where
  entry : Entry
  deliver : List (Byte × List Byte)
  fail : List (Byte × FailReason)
  other : List CanFrame

/-- The state after a frame of key `a` with effect `r`. -/
def RxEffect.apply (r : RxEffect) (a : Byte) (s : State) : State :=
  { s with canRx := s.canRx.set a.toNat r.entry a.isLt
           deliver := s.deliver ++ r.deliver
           fail := s.fail ++ r.fail
           otherFrame := s.otherFrame ++ r.other }

/-- The state after an effect that leaves the entry as it is. -/
theorem RxEffect.apply_same (s : State) (a : Byte) (dl : List (Byte × List Byte)) (fl : List (Byte × FailReason))
    (ot : List CanFrame) : RxEffect.apply ⟨s.entry a, dl, fl, ot⟩ a s =
      { s with deliver := s.deliver ++ dl, fail := s.fail ++ fl, otherFrame := s.otherFrame ++ ot } := by
  simp [RxEffect.apply, State.entry]

theorem RxEffect.apply_failKey (s : State) (a : Byte) (r : FailReason) :
    RxEffect.apply ⟨(s.entry a).discard, [], [(a, r)], []⟩ a s = s.failKey a r := by
  simp [RxEffect.apply, State.failKey, State.setEntry, State.emitFail]

theorem RxEffect.apply_setEntry (s : State) (a : Byte) (e : Entry) :
    RxEffect.apply ⟨e, [], [], []⟩ a s = s.setEntry a e := by
  simp [RxEffect.apply, State.setEntry]

theorem RxEffect.apply_none (s : State) (a : Byte) : RxEffect.apply ⟨s.entry a, [], [], []⟩ a s = s := by
  rw [RxEffect.apply_setEntry, State.setEntry_entry]

/-- An error is reported once and alone, and leaves its key inactive (60_exceptions.md R203). -/
def RxEffect.reportsOnce (r : RxEffect) (a : Byte) : Prop :=
  r.fail = [] ∨ ∃ x, r.fail = [(a, x)] ∧ r.deliver = [] ∧ r.other = [] ∧ r.entry.active = false

/-- What a handler does is a function of one entry and the parameters: it faults in every state with that entry, or has one
effect in all of them. -/
def EntryStep (a : Byte) (p : Params) (e : Entry) (f : State → Host.Outcome State Fault Refusal) : Prop :=
  (∃ x, ∀ s : State, s.params = p → s.entry a = e → f s = .fault x) ∨
  (∃ r : RxEffect, r.reportsOnce a ∧ ∀ s : State, s.params = p → s.entry a = e → f s = .next (r.apply a s))

theorem entryStep_short (a : Byte) (p : Params) (e : Entry) (d : List Byte) : EntryStep a p e (rxShort a d) := by
  refine .inr ⟨⟨e, [(a, d)], [], []⟩, .inl rfl, ?_⟩
  rintro s - rfl
  rw [RxEffect.apply_same]; simp [rxShort, State.emitDeliver]

theorem entryStep_other (a : Byte) (p : Params) (e : Entry) (id : CanId) (d : List Byte) :
    EntryStep a p e (rxOther id d) := by
  refine .inr ⟨⟨e, [], [], [⟨id, d⟩]⟩, .inl rfl, ?_⟩
  rintro s - rfl
  rw [RxEffect.apply_same]; simp [rxOther, State.emitOther]

theorem entryStep_fill (a : Byte) (p : Params) (e : Entry) (d : List Byte) : EntryStep a p e (rxFill a d) := by
  right
  simp only [rxFill_eq, fillResult]
  split
  · rename_i d0 d1 chunk
    by_cases h0 : dataNumber d0 d1 = 0
    · by_cases hc : p.canBufCapacity < chunk.length
      · refine ⟨⟨e.discard, [], [(a, .overflow)], []⟩, .inr ⟨_, rfl, rfl, rfl, rfl⟩, ?_⟩
        rintro s rfl rfl
        rw [if_pos h0, if_pos hc, RxEffect.apply_failKey]
      · refine ⟨⟨⟨true, chunk.length, e.rbuf.setBytes 0 chunk⟩, [], [], []⟩, .inl rfl, ?_⟩
        rintro s rfl rfl
        rw [if_pos h0, if_neg hc, RxEffect.apply_setEntry]
    · by_cases ha : e.active = false
      · refine ⟨⟨e, [], [], []⟩, .inl rfl, ?_⟩
        rintro s rfl rfl
        rw [if_neg h0, if_pos ha, RxEffect.apply_none]
      · by_cases hl : dataNumber d0 d1 ≠ e.fillLen
        · refine ⟨⟨e.discard, [], [(a, .outOfOrder)], []⟩, .inr ⟨_, rfl, rfl, rfl, rfl⟩, ?_⟩
          rintro s rfl rfl
          rw [if_neg h0, if_neg ha, if_pos hl, RxEffect.apply_failKey]
        · by_cases hc : p.canBufCapacity < dataNumber d0 d1 + chunk.length
          · refine ⟨⟨e.discard, [], [(a, .overflow)], []⟩, .inr ⟨_, rfl, rfl, rfl, rfl⟩, ?_⟩
            rintro s rfl rfl
            rw [if_neg h0, if_neg ha, if_neg hl, if_pos hc, RxEffect.apply_failKey]
          · refine ⟨⟨e.append (dataNumber d0 d1) chunk, [], [], []⟩, .inl rfl, ?_⟩
            rintro s rfl rfl
            rw [if_neg h0, if_neg ha, if_neg hl, if_neg hc, RxEffect.apply_setEntry]
  · refine ⟨⟨e.discard, [], [(a, .malformed)], []⟩, .inr ⟨_, rfl, rfl, rfl, rfl⟩, ?_⟩
    rintro s rfl rfl
    rw [RxEffect.apply_failKey]

theorem entryStep_process (a : Byte) (p : Params) (e : Entry) (d : List Byte) : EntryStep a p e (rxProcess a d) := by
  unfold EntryStep rxProcess
  split
  · rename_i d0 d1 rest
    simp only
    by_cases ha : ¬ e.active
    · refine .inr ⟨⟨e, [], [(a, .noBuffer)], []⟩, .inr ⟨_, rfl, rfl, rfl, by simpa using ha⟩, ?_⟩
      rintro s rfl rfl
      rw [if_pos ha, RxEffect.apply_same]; simp [State.emitFail]
    · by_cases hl : e.fillLen = dataNumber d0 d1
      · rcases hm : memRead (.rbuf a) p.canBufCapacity e.rbuf 0 (dataNumber d0 d1) with x | pl
        · refine .inl ⟨x, ?_⟩
          rintro s rfl rfl
          rw [if_neg ha, if_pos hl, hm]
        · refine .inr ⟨⟨e.discard, [(a, pl)], [], []⟩, .inl rfl, ?_⟩
          rintro s rfl rfl
          rw [if_neg ha, if_pos hl, hm]
          simp [RxEffect.apply, State.setEntry, State.emitDeliver]
      · refine .inr ⟨⟨e.discard, [], [(a, .lengthMismatch)], []⟩, .inr ⟨_, rfl, rfl, rfl, rfl⟩, ?_⟩
        rintro s rfl rfl
        rw [if_neg ha, if_neg hl, RxEffect.apply_failKey]
  · refine .inr ⟨⟨e.discard, [], [(a, .malformed)], []⟩, .inr ⟨_, rfl, rfl, rfl, rfl⟩, ?_⟩
    rintro s rfl rfl
    rw [RxEffect.apply_failKey]

/-- The key whose entry a frame reads and writes (43_can_rx.md R174); for a frame of another packet type any would do. -/
def keyOf (i : Instr) : Byte :=
  match i with
  | .rx id _ => idAddress id
  | .canShort _ a _ => a
  | .canFill _ a _ => a
  | .canProcess _ a _ => a
  | .canOther id _ => idAddress id
  | .crc16 _ | .reset _ | .byte _ _ | .send _ _ | .sendbuf _ _
  | .wireStart1 _ | .wireStart2 _ | .wireStart3 _ | .wireEnd _ => 0

/-- Every frame for `CanRx` is a function of its key's entry and the parameters. -/
theorem exec_canRx {i : Instr} (h : agentOf i = .canRx) (p : Params) (e : Entry) :
    EntryStep (keyOf i) p e (exec i) := by
  have rx : ∀ id d, EntryStep (idAddress id) p e (execRx id d) := by
    intro id d
    have go : ∀ f, EntryStep (idAddress id) p e f →
        (∀ s : State, s.params = p → execRx id d s = f s) → EntryStep (idAddress id) p e (execRx id d) := by
      rintro f (⟨x, hx⟩ | ⟨r, hr, hx⟩) hf
      · exact .inl ⟨x, fun s hp he => (hf s hp).trans (hx s hp he)⟩
      · exact .inr ⟨r, hr, fun s hp he => (hf s hp).trans (hx s hp he)⟩
    by_cases h1 : idType id = p.typeShort
    · exact go _ (entryStep_short _ p e d) (by rintro s rfl; simp [execRx, h1])
    · by_cases h2 : idType id = p.typeFill
      · exact go _ (entryStep_fill _ p e d) (by rintro s rfl; rw [execRx, if_neg h1, if_pos h2])
      · by_cases h3 : idType id = p.typeProcess
        · exact go _ (entryStep_process _ p e d) (by rintro s rfl; rw [execRx, if_neg h1, if_neg h2, if_pos h3])
        · exact go _ (entryStep_other _ p e id d) (by rintro s rfl; rw [execRx, if_neg h1, if_neg h2, if_neg h3])
  cases i with
  | rx id d => exact rx id d
  | canShort hi a d => exact entryStep_short a p e d
  | canFill hi a d => exact entryStep_fill a p e d
  | canProcess hi a d => exact entryStep_process a p e d
  | canOther id d => exact entryStep_other _ p e id d
  | crc16 _ => cases h
  | sendbuf _ _ => cases h
  | reset _ => cases h
  | byte _ _ => cases h
  | send _ _ => cases h
  | wireStart1 _ => cases h
  | wireStart2 _ => cases h
  | wireStart3 _ => cases h
  | wireEnd _ => cases h

end Sys2Proof.Machine
end

