-- ==== Sys2Proof/Laws/PerInstr.lean ====
section
/-! SUPPORT. Statements about every instruction as syntax, one lemma per constructor. Family EncodedSize: how many bytes the
interface carries for it (30_encoding.md R71, R85; 41_codec.md R111). -/

namespace Sys2Proof.Laws

/-- The total length of a command in bytes (30_encoding.md R71, last column); 0 for what is no command. -/
def EncodedSize.commandBytes (i : Instr) : Nat :=
  match i with
  | .crc16 s => 8 + s.length
  | .reset _ => 4
  | .byte _ _ => 4
  | .send _ p => 8 + p.length
  | .sendbuf _ p => 8 + p.length
  | .rx _ d => 8 + d.length
  | .canShort _ _ _ | .canFill _ _ _ | .canProcess _ _ _ | .canOther _ _
  | .wireStart1 _ | .wireStart2 _ | .wireStart3 _ | .wireEnd _ => 0

/-- A command has the length of R71, a frame at most eight data bytes (R85), a wire byte an instance that is there. -/
def EncodedSize.Statement (i : Instr) : Prop :=
  ∀ p, WellFormed p i →
    match encode p i with
    | .command bs => bs.length = EncodedSize.commandBytes i
    | .canFrame _ d => d.length ≤ 8
    | .wireByte k _ => k < p.nCodec

theorem EncodedSize.crc16 (s : List Byte) : EncodedSize.Statement (.crc16 s) := by
  intro p _; simp [encode, encodeSized, be32, EncodedSize.commandBytes]; omega

theorem EncodedSize.reset (k : Nat) : EncodedSize.Statement (.reset k) := by
  intro p _; simp [encode, be32, EncodedSize.commandBytes]

theorem EncodedSize.byte (k : Nat) (b : Byte) : EncodedSize.Statement (.byte k b) := by
  intro p _; simp [encode, be32, EncodedSize.commandBytes]

theorem EncodedSize.send (k : Nat) (s : List Byte) : EncodedSize.Statement (.send k s) := by
  intro p _; simp [encode, encodeSized, be32, EncodedSize.commandBytes]; omega

theorem EncodedSize.sendbuf (a : Byte) (s : List Byte) : EncodedSize.Statement (.sendbuf a s) := by
  intro p _; simp [encode, encodeSized, be32, EncodedSize.commandBytes]; omega

theorem EncodedSize.rx (id : CanId) (d : List Byte) : EncodedSize.Statement (.rx id d) := by
  intro p _; simp [encode, be32, EncodedSize.commandBytes]; omega

theorem EncodedSize.canShort (hi : BitVec 13) (a : Byte) (d : List Byte) :
    EncodedSize.Statement (.canShort hi a d) := fun _ h => h

theorem EncodedSize.canFill (hi : BitVec 13) (a : Byte) (d : List Byte) :
    EncodedSize.Statement (.canFill hi a d) := fun _ h => h

theorem EncodedSize.canProcess (hi : BitVec 13) (a : Byte) (d : List Byte) :
    EncodedSize.Statement (.canProcess hi a d) := fun _ h => h

theorem EncodedSize.canOther (id : CanId) (d : List Byte) : EncodedSize.Statement (.canOther id d) := fun _ h => h.1

theorem EncodedSize.wireStart1 (k : Nat) : EncodedSize.Statement (.wireStart1 k) := fun _ h => h

theorem EncodedSize.wireStart2 (k : Nat) : EncodedSize.Statement (.wireStart2 k) := fun _ h => h

theorem EncodedSize.wireStart3 (k : Nat) : EncodedSize.Statement (.wireStart3 k) := fun _ h => h

theorem EncodedSize.wireEnd (k : Nat) : EncodedSize.Statement (.wireEnd k) := fun _ h => h

end Sys2Proof.Laws
end

