-- ==== Sys2Proof/Certificates/Slice0/Obligations.lean ====
section
/-! DEFINITION. The statements for the provers. Each names the rules of spec/ it formalises; "the model's choice" marks what
rests on an entry of the assumption log instead. -/

open Sys2Proof Sys2Proof.Machine

/-! ## Encoding -/

/-- Decoding what an instruction encodes to gives the instruction back, with nothing left over (30_encoding.md R70, R71, R76,
R84, R86). A wire byte is read in the phase of its table row; everything else in any phase. -/
def Obligations.DecodeOfEncodeIsIdentity : Prop :=
  ∀ (p : Params) (i : Instr) (ph : Phase), p.legal → WellFormed p i →
    (ph = rowPhase i ∨ ∀ k b, encode p i ≠ .wireByte k b) → decode p ph (encode p i) = .ok (i, [])

/-- No two byte sequences spell one command (30_encoding.md R70 to R73): a decoded command is well-formed, and its encoding is
exactly the bytes that were read. -/
def Obligations.EncodeOfDecodeIsIdentity : Prop :=
  ∀ (p : Params) (bs rest : List Byte) (i : Instr), decodeCommand p bs = .ok (i, rest) →
    WellFormed p i ∧ ∃ front, encode p i = .command front ∧ bs = front ++ rest

/-- A command is refused as ill-formed exactly where 30_encoding.md R72 says so, or where its header word itself is cut short
(fewer than four bytes, even none), which R72 does not speak of: that clause is the model's choice (log 7). -/
def Obligations.IllFormedCommandsAreRefused : Prop :=
  ∀ (s : State) (bs : List Byte) (rest : List Input), s.input = .present (.command bs) :: rest →
    ((∃ e, step s = .refused (.illFormed e)) ↔ Spec.IllFormed s.params bs)

/-- Commands that the spec writes out byte by byte (95_test_vectors.md 2.1, 2.3, 2.6), and one frame and one marker of each
kind (30_encoding.md R76, R84, R86), decode to what they stand for. -/
def Obligations.SpecWordsDecode : Prop :=
  decode Params.reference .idle (.command [0x00, 0x00, 0x00, 0x00, 0x00, 0x00, 0x00, 0x03, 0x01, 0x02, 0x03]) =
    .ok (.crc16 [0x01, 0x02, 0x03], []) ∧
  decode Params.reference .idle (.command [0x00, 0x55, 0x00, 0x02]) = .ok (.byte 0 0x55, []) ∧
  decode Params.reference .idle (.command [0x00, 0x08, 0x00, 0x05, 0x00, 0x00, 0x08, 0x05, 0x00, 0x01, 0x02, 0x03,
    0x04, 0x05, 0x06, 0x07]) = .ok (.rx 0x805 [0x00, 0x01, 0x02, 0x03, 0x04, 0x05, 0x06, 0x07], []) ∧
  decode Params.reference .idle (.canFrame 0x505 [0x00, 0x06, 0x07]) = .ok (.canFill 0 5 [0x00, 0x06, 0x07], []) ∧
  decode Params.reference .idle (.wireByte 2 0x03) = .ok (.wireStart2 2, []) ∧
  decode Params.reference .endMark (.wireByte 2 0x03) = .ok (.wireEnd 2, [])

/-- A step runs the instruction that the item at the head of the queue decodes to, with that item taken off the queue and any
bytes after the first command put back in its place, as a command of their own (the model's choice, log 7). A wire byte is
decoded in the phase of the codec it goes to. -/
def Obligations.StepRunsDecodedInstruction : Prop :=
  (∀ (s : State) (x : Encoded) (rest : List Input) (i : Instr) (left : List Byte),
    s.input = .present x :: rest → decode s.params (s.phaseFor x) x = .ok (i, left) →
    step s = exec i { s with input := restOfInput left rest }) ∧
  (∀ (s : State) (k : Nat) (b : Byte) (c : Codec), s.codecs[k]? = some c → s.phaseFor (.wireByte k b) = c.phase) ∧
  (∀ rest, restOfInput [] rest = rest) ∧
  (∀ (b : Byte) (left : List Byte) (rest : List Input),
    restOfInput (b :: left) rest = .present (.command (b :: left)) :: rest)

/-- With nothing presented, a step changes nothing (the model's choice, log 24). -/
def Obligations.StepWithoutInputChangesNothing : Prop :=
  ∀ s : State, s.input = [] → step s = .next s

/-- A marker as an instruction of its own does what CODEC_PROCESS_BYTE does with its byte, in every phase (the model's choice,
log 17). -/
def Obligations.WireMarkersAreTheirBytes : Prop :=
  ∀ (k : Nat) (s : State),
    exec (.wireStart1 k) s = exec (.byte k 0x02) s ∧ exec (.wireStart2 k) s = exec (.byte k 0x03) s ∧
    exec (.wireStart3 k) s = exec (.byte k 0x04) s ∧ exec (.wireEnd k) s = exec (.byte k 0x03) s

/-! ## The CRC Engine -/

/-- CRC16 returns the 16 coefficients of `(M(x) * x^16) mod (x^16 + x^12 + x^5 + 1)` and changes nothing else (40_crc.md R102,
R104). -/
def Obligations.Crc16ReturnsPolynomialRemainder : Prop :=
  ∀ (bytes : List Byte) (s : State), ∃ c : U16,
    exec (.crc16 bytes) s = .next { s with crcReturned := s.crcReturned ++ [c] } ∧
    ∀ m q : Polynomial (ZMod 2), Spec.HasBits (Spec.messageBit bytes) (8 * bytes.length) m →
      Spec.HasBits c.getLsbD 16 q →
      q = Polynomial.modByMonic (m * Polynomial.X ^ 16)
        (Polynomial.X ^ 16 + Polynomial.X ^ 12 + Polynomial.X ^ 5 + 1)

/-- The table form of the checksum update gives the same result for every register value and byte (40_crc.md R105). -/
def Obligations.CrcTableFormAgrees : Prop :=
  (∀ (c : U16) (b : Byte), crcUpdate c b = (c <<< 8) ^^^ crcUpdate 0 ((c >>> 8).setWidth 8 ^^^ b)) ∧
  (∀ i : Byte, crcUpdate 0 i = crc16 [i])

/-- The laws of the checksum (40_crc.md R106): empty input, zero prefix, linearity, append, single byte, composition. -/
def Obligations.CrcLaws : Prop :=
  crc16 [] = 0 ∧
  (∀ s, crc16 (0x00 :: s) = crc16 s) ∧
  (∀ s t : List Byte, s.length = t.length → crc16 (List.zipWith (· ^^^ ·) s t) = crc16 s ^^^ crc16 t) ∧
  (∀ s, crc16 (s ++ Spec.bytesOf 2 (crc16 s).toNat) = 0) ∧
  (∀ b, crc16 [b] = crcUpdate 0 b) ∧ crc16 [0x01] = 0x1021 ∧
  (∀ s t, crc16 (s ++ t) = t.foldl crcUpdate (crc16 s))

/-! ## The Packet Codec -/

/-- CODEC_RESET of an open instance brings it to IDLE, emits nothing and touches nothing else (41_codec.md R110). What the
codec's other receive fields hold afterwards the rule leaves open, and so does this statement. -/
def Obligations.ResetReturnsInstanceToIdle : Prop :=
  ∀ (s : State) (k : Nat) (c : Codec), s.openAt k c →
    ∃ c', exec (.reset k) s = .next (Spec.withCodec s k c') ∧ c'.phase = .idle ∧ c'.isOpen = true ∧
      c'.onPayload = c.onPayload ∧ c'.transmit = c.transmit

/-- Phase IDLE (41_codec.md R112): each start marker selects its length width; every other byte changes nothing. -/
def Obligations.IdleByteSelectsWidthOrIsDiscarded : Prop :=
  ∀ (s : State) (k : Nat) (c : Codec), s.openAt k c → c.phase = .idle →
    (∀ i, i = .byte k 0x02 ∨ i = .wireStart1 k → exec i s = .next (Spec.withCodec s k
      { c with lenWidth := 1, lenGot := 0, len := 0, phase := .length })) ∧
    (∀ i, i = .byte k 0x03 ∨ i = .wireStart2 k → exec i s = .next (Spec.withCodec s k
      { c with lenWidth := 2, lenGot := 0, len := 0, phase := .length })) ∧
    (∀ i, i = .byte k 0x04 ∨ i = .wireStart3 k → exec i s = .next (Spec.withCodec s k
      { c with lenWidth := 3, lenGot := 0, len := 0, phase := .length })) ∧
    (∀ b, b ≠ 0x02 → b ≠ 0x03 → b ≠ 0x04 → exec (.byte k b) s = .next s)

/-- Phase LENGTH (41_codec.md R113). The premise on the length received so far is what R26 gives before the last byte of a
length field of at most three bytes. -/
def Obligations.LengthByteAccumulatesAndDecides : Prop :=
  ∀ (s : State) (k : Nat) (c : Codec) (b : Byte), s.openAt k c → c.phase = .length → c.len.toNat < 65536 →
    let n := 256 * c.len.toNat + b.toNat
    let c' : Codec := { c with len := BitVec.ofNat 24 n, lenGot := c.lenGot + 1 }
    (c.lenGot + 1 ≠ c.lenWidth → exec (.byte k b) s = .next (Spec.withCodec s k c')) ∧
    (c.lenGot + 1 = c.lenWidth → s.params.maxPayload < n →
      exec (.byte k b) s = .next (Spec.withCodec s k { c' with phase := .idle })) ∧
    (c.lenGot + 1 = c.lenWidth → n ≤ s.params.maxPayload → n = 0 →
      exec (.byte k b) s = .next (Spec.withCodec s k { c' with cursor := 0, phase := .crcHi })) ∧
    (c.lenGot + 1 = c.lenWidth → n ≤ s.params.maxPayload → n ≠ 0 →
      exec (.byte k b) s = .next (Spec.withCodec s k { c' with cursor := 0, phase := .payload }))

/-- Phase PAYLOAD (41_codec.md R116): the byte is stored at the cursor if that is below `RX_CAPACITY` and nowhere otherwise,
the cursor advances, and the last payload byte leads to CRC_HI; nothing else changes. -/
def Obligations.PayloadByteIsStoredBelowCapacity : Prop :=
  ∀ (s : State) (k : Nat) (c : Codec) (b : Byte), s.openAt k c → c.phase = .payload →
    ∃ m : Memory, exec (.byte k b) s = .next (Spec.withCodec s k
      { c with buf := m, cursor := c.cursor + 1, phase := if c.cursor + 1 = c.len.toNat then .crcHi else .payload }) ∧
      (c.cursor < s.params.rxCapacity → ∀ a, m.byteAt a = if a = c.cursor then some b else c.buf.byteAt a) ∧
      (s.params.rxCapacity ≤ c.cursor → m = c.buf)

/-- Phases CRC_HI and CRC_LO (41_codec.md R117, R118): the two checksum bytes, high byte first. -/
def Obligations.ChecksumBytesAreTakenHighFirst : Prop :=
  ∀ (s : State) (k : Nat) (c : Codec) (b : Byte), s.openAt k c →
    (c.phase = .crcHi → exec (.byte k b) s = .next (Spec.withCodec s k
      { c with crcRx := BitVec.ofNat 16 (256 * b.toNat), phase := .crcLo })) ∧
    (c.phase = .crcLo → exec (.byte k b) s = .next (Spec.withCodec s k
      { c with crcRx := c.crcRx ||| BitVec.ofNat 16 b.toNat, phase := .endMark }))

/-- Phase END (41_codec.md R119): IDLE in every case; the received payload is delivered exactly where the end marker, the
capacity check and the checksum all pass. -/
def Obligations.EndByteDeliversOrDrops : Prop :=
  ∀ (s : State) (k : Nat) (c : Codec), s.openAt k c → c.phase = .endMark →
    (∀ b, b ≠ 0x03 → exec (.byte k b) s = .next (Spec.withCodec s k { c with phase := .idle })) ∧
    (∀ i, i = .byte k 0x03 ∨ i = .wireEnd k →
      (s.params.rxCapacity < c.len.toNat →
        exec i s = .next (Spec.withCodec s k { c with phase := .idle })) ∧
      (∀ pl : List Byte, c.len.toNat = pl.length → pl.length ≤ s.params.rxCapacity → c.buf.holds pl →
        exec i s = .next (Spec.withCodec s k
          (if crc16 pl = c.crcRx then { c with phase := .idle, onPayload := c.onPayload ++ [pl] }
           else { c with phase := .idle }))))

/-- CODEC_PROCESS_BYTE completes for every byte in every phase of every state, and emits at most one event, in phase END only
(41_codec.md R111, R123). -/
def Obligations.ByteAlwaysCompletes : Prop :=
  ∀ (s : State) (k : Nat) (c : Codec) (b : Byte), s.openAt k c →
    ∃ c', exec (.byte k b) s = .next (Spec.withCodec s k c') ∧
      c'.isOpen = true ∧ c'.transmit = c.transmit ∧
      (c'.onPayload = c.onPayload ∨ (c.phase = .endMark ∧ ∃ pl, c'.onPayload = c.onPayload ++ [pl]))

/-- A start marker of width `w` and the `w` bytes `f` of a length field, fed from IDLE, leave the length they spell
(30_encoding.md R77, 41_codec.md R114): too long a length is rejected, length 0 skips the payload, any other begins it. -/
def Obligations.LengthFieldSpellsItsNumber : Prop :=
  ∀ (s : State) (k : Nat) (c : Codec) (f : List Byte), s.openAt k c → c.phase = .idle →
    1 ≤ f.length → f.length ≤ 3 →
    ∃ c', execAll (feed k (Spec.marker f.length :: f)) s = .next (Spec.withCodec s k c') ∧
      c'.len.toNat = Spec.number f ∧ c'.onPayload = c.onPayload ∧ c'.buf = c.buf ∧
      (s.params.maxPayload < Spec.number f → c'.phase = .idle) ∧
      (Spec.number f ≤ s.params.maxPayload → c'.cursor = 0 ∧
        c'.phase = if Spec.number f = 0 then .crcHi else .payload)

/-- Round trip (41_codec.md R120): feeding the bytes that CODEC_SEND transmits for `P` into a codec in IDLE delivers exactly
`P`, on the last byte and not before, and leaves the codec in IDLE; a payload longer than `RX_CAPACITY` is rejected instead. -/
def Obligations.SentFrameIsDeliveredOnce : Prop :=
  ∀ (s s0 t0 : State) (k j : Nat) (c c0 cj : Codec) (P W : List Byte),
    s.params.legal → s.openAt k c → c.phase = .idle → P.length ≤ s.params.maxPayload →
    s0.openAt j c0 → exec (.send j P) s0 = .next t0 → t0.codecs[j]? = some cj →
    cj.transmit = c0.transmit ++ [W] →
    (P.length ≤ s.params.rxCapacity → ∃ c', execAll (feed k W) s = .next (Spec.withCodec s k c') ∧ c'.phase = .idle ∧
      c'.onPayload = c.onPayload ++ [P] ∧ c'.transmit = c.transmit) ∧
    (s.params.rxCapacity < P.length → ∃ c', execAll (feed k W) s = .next (Spec.withCodec s k c') ∧ c'.phase = .idle ∧
      c'.onPayload = c.onPayload ∧ c'.transmit = c.transmit) ∧
    (∀ n, n < W.length → ∃ c', execAll (feed k (W.take n)) s = .next (Spec.withCodec s k c') ∧
      c'.onPayload = c.onPayload ∧ c'.transmit = c.transmit)

/-- The codec accepts any of the three widths for any length the width can hold (30_encoding.md R79). -/
def Obligations.AnyLengthWidthIsAccepted : Prop :=
  ∀ (s : State) (k w : Nat) (c : Codec) (P : List Byte),
    s.openAt k c → c.phase = .idle → 1 ≤ w → w ≤ 3 → P.length < 256 ^ w →
    P.length ≤ s.params.maxPayload → P.length ≤ s.params.rxCapacity →
    ∃ c', execAll (feed k (Spec.wireFrameOf w P)) s = .next (Spec.withCodec s k c') ∧
      c'.phase = .idle ∧ c'.onPayload = c.onPayload ++ [P]

/-- Corruption (41_codec.md R121): a frame whose end marker or either checksum byte is replaced by another value delivers
nothing, whether or not its payload fits the receive buffer. -/
def Obligations.CorruptedFrameDeliversNothing : Prop :=
  ∀ (s : State) (k w : Nat) (c : Codec) (P : List Byte) (hi lo e : Byte),
    s.openAt k c → c.phase = .idle → 1 ≤ w → w ≤ 3 → P.length < 256 ^ w →
    P.length ≤ s.params.maxPayload →
    (e ≠ 0x03 ∨ hi ≠ Spec.crcHiOf (crc16 P) ∨ lo ≠ Spec.crcLoOf (crc16 P)) →
    ∃ c', execAll (feed k (Spec.wire w P hi lo e)) s = .next (Spec.withCodec s k c') ∧
      c'.phase = .idle ∧ c'.onPayload = c.onPayload

/-- A frame longer than the receive buffer but within `MAX_PAYLOAD` is consumed to its end and dropped, and never written past
the buffer (41_codec.md R116, R119; 20_memory.md R58; 90_conflicts.md C3). -/
def Obligations.FrameBeyondCapacityIsDropped : Prop :=
  ∀ (s : State) (k w : Nat) (c : Codec) (P : List Byte),
    s.openAt k c → c.phase = .idle → 1 ≤ w → w ≤ 3 → P.length < 256 ^ w →
    P.length ≤ s.params.maxPayload → s.params.rxCapacity < P.length →
    (∀ x ∈ c.buf, x.1 < s.params.rxCapacity) →
    ∃ c', execAll (feed k (Spec.wireFrameOf w P)) s = .next (Spec.withCodec s k c') ∧
      c'.phase = .idle ∧ c'.onPayload = c.onPayload ∧ (∀ x ∈ c'.buf, x.1 < s.params.rxCapacity)

/-- CODEC_SEND (41_codec.md R125, R126; 30_encoding.md R75, R78): one transmit event with the wire frame of minimal width, or
no effect for a payload over `MAX_PAYLOAD` or an instance without a transmit port; no receive field changes. -/
def Obligations.SendTransmitsTheWireFrame : Prop :=
  ∀ (s : State) (k : Nat) (c : Codec) (p : List Byte), s.params.legal → s.openAt k c →
    (s.params.maxPayload < p.length → exec (.send k p) s = .next s) ∧
    (s.params.txPresent[k]? = some false → exec (.send k p) s = .next s) ∧
    (p.length ≤ s.params.maxPayload → s.params.txPresent[k]? = some true →
      exec (.send k p) s = .next (Spec.withCodec s k
        { c with transmit := c.transmit ++ [Spec.wireFrameOf (Spec.minimalWidth p.length) p] }))

/-- The lifetime of an instance (41_codec.md R127): closing its endpoint discards the partial frame and emits nothing, every
operation that names it is refused while it is closed, and a new connection starts a new instance in IDLE. That the closing and
the opening are inputs, and what closing an endpoint that is already closed does, are the model's choice (log 14). -/
def Obligations.ClosedInstanceIsRefused : Prop :=
  (∀ (s : State) (k : Nat) (c : Codec) (rest : List Input), s.input = .closeEndpoint k :: rest →
    s.codecs[k]? = some c →
    ∃ c', step s = .next { s with input := rest, codecs := s.codecs.set k c' } ∧ c'.isOpen = false ∧
      c'.phase = .idle ∧ c'.onPayload = c.onPayload ∧ c'.transmit = c.transmit) ∧
  (∀ (s : State) (k : Nat) (c : Codec) (i : Instr), s.codecs[k]? = some c → c.isOpen = false →
    agentOf i = .codec k → exec i s = .refused (.closedInstance k)) ∧
  (∀ (s : State) (k : Nat) (c : Codec) (rest : List Input), s.input = .openEndpoint k :: rest →
    s.codecs[k]? = some c → c.isOpen = false →
    ∃ c', step s = .next { s with input := rest, codecs := s.codecs.set k c' } ∧ c'.isOpen = true ∧ c'.phase = .idle)

/-! ## The CAN fragmenter -/

/-- When the bus accepts every attempt, CAN_SEND_BUFFER emits the frame sequence `F(a, p)` in order, returns OK and changes
nothing else (42_can_tx.md R141, R143, R144, R145). -/
def Obligations.SendbufEmitsItsFrameSequence : Prop :=
  ∀ (s : State) (a : Byte) (p : List Byte) (rest : List BusAnswer), s.params.legal → p.length ≤ 65535 →
    s.bus.script = List.replicate (Spec.frames s.params a p).length .accept ++ rest →
    exec (.sendbuf a p) s = .next { s with
      txFrame := s.txFrame ++ Spec.frames s.params a p
      sendReturned := s.sendReturned ++ [.ok]
      bus := { s.bus with script := rest } }

/-- Whatever the bus answers, CAN_SEND_BUFFER completes: OK with every frame sent, ABANDONED with only a first part of them, or
TOO_LONG with none and no attempt (42_can_tx.md R142, R149). -/
def Obligations.SendbufAlwaysReturnsAStatus : Prop :=
  (∀ (s : State) (a : Byte) (p : List Byte), p.length ≤ 65535 → ∃ n st b,
    exec (.sendbuf a p) s = .next { s with
      txFrame := s.txFrame ++ (Spec.frames s.params a p).take n
      sendReturned := s.sendReturned ++ [st]
      bus := b } ∧
    ((st = .ok ∧ n = (Spec.frames s.params a p).length) ∨
     (st = .abandoned ∧ n < (Spec.frames s.params a p).length))) ∧
  (∀ (s : State) (a : Byte) (p : List Byte), 65535 < p.length →
    exec (.sendbuf a p) s = .next { s with sendReturned := s.sendReturned ++ [.tooLong] }) ∧
  SendStatus.ok.code = 0 ∧ SendStatus.abandoned.code = 1 ∧ SendStatus.tooLong.code = 2

/-- The retry bound (42_can_tx.md R146, R148): a frame is sent if the bus accepts it within `TX_MAX_ATTEMPTS` attempts; at the
first frame it refuses that often, neither that frame nor a later one is offered again and the status is ABANDONED. -/
def Obligations.SendbufAbandonsAfterMaxAttempts : Prop :=
  ∀ (s : State) (a : Byte) (p : List Byte) (js : List Nat) (rest : List BusAnswer), p.length ≤ 65535 →
    (∀ j ∈ js, j < s.params.txMaxAttempts) →
    let answers := js.flatMap (fun j => List.replicate j BusAnswer.busy ++ [BusAnswer.accept])
    let frames := Spec.frames s.params a p
    (js.length = frames.length → s.bus.script = answers ++ rest →
      exec (.sendbuf a p) s = .next { s with
        txFrame := s.txFrame ++ frames, sendReturned := s.sendReturned ++ [.ok]
        bus := { s.bus with script := rest } }) ∧
    (js.length < frames.length →
      s.bus.script = answers ++ List.replicate s.params.txMaxAttempts .busy ++ rest →
      exec (.sendbuf a p) s = .next { s with
        txFrame := s.txFrame ++ frames.take js.length, sendReturned := s.sendReturned ++ [.abandoned]
        bus := { s.bus with script := rest } })

/-- The frames of a payload that is sent whole (30_encoding.md R90): one SHORT frame, or `ceil(L / 6)` FILL frames and one
PROCESS frame; the largest FILL offset is `6 * (ceil(L / 6) - 1)`. -/
def Obligations.SendbufFrameCounts : Prop :=
  ∀ (s t : State) (a : Byte) (p : List Byte), exec (.sendbuf a p) s = .next t →
    t.sendReturned = s.sendReturned ++ [.ok] →
    (p.length ≤ 6 → ∃ f, t.txFrame = s.txFrame ++ [f] ∧ Spec.typeOf f.id = s.params.typeShort.toNat) ∧
    (7 ≤ p.length → p.length ≤ 65535 →
      let n := (p.length + 5) / 6
      6 * (n - 1) ≤ 65532 ∧
      ∃ fills g, t.txFrame = s.txFrame ++ fills ++ [g] ∧ fills.length = n ∧
        (∀ f ∈ fills, Spec.typeOf f.id = s.params.typeFill.toNat ∧ Spec.number (f.data.take 2) ≤ 6 * (n - 1)) ∧
        (∃ f ∈ fills, Spec.number (f.data.take 2) = 6 * (n - 1)) ∧
        Spec.typeOf g.id = s.params.typeProcess.toNat)

/-! ## CAN reassembly -/

/-- A SHORT frame delivers its data bytes and touches nothing else (43_can_rx.md R163). -/
def Obligations.ShortFrameDelivers : Prop :=
  ∀ (s : State) (i : Instr) (a : Byte) (d : List Byte), Spec.IsShort s.params i a d →
    exec i s = .next { s with deliver := s.deliver ++ [(a, d)] }

/-- FILL frames that are not stored (43_can_rx.md R167, R169, R170): too short to hold an offset, out of order, a stray fragment
of an inactive key, past the end of the buffer. -/
def Obligations.FillFrameErrors : Prop :=
  ∀ (s : State) (i : Instr) (a : Byte) (d : List Byte), s.params.legal → Spec.IsFill s.params i a d →
    (d.length < 2 → exec i s = .next (Spec.failed s a .malformed)) ∧
    (∀ d0 d1 chunk, d = d0 :: d1 :: chunk →
      let off := 256 * d0.toNat + d1.toNat
      (off ≠ 0 → (s.entry a).active = false → exec i s = .next s) ∧
      (off ≠ 0 → (s.entry a).active = true → off ≠ (s.entry a).fillLen →
        exec i s = .next (Spec.failed s a .outOfOrder)) ∧
      (off = 0 ∨ ((s.entry a).active = true ∧ off = (s.entry a).fillLen) →
        s.params.canBufCapacity < off + chunk.length → exec i s = .next (Spec.failed s a .overflow)))

/-- A FILL frame at offset 0 or at the next expected offset of an active key (43_can_rx.md R166, R168): its bytes are stored at
the offset, the fill length is their end, and nothing else changes. -/
def Obligations.FillFrameAppends : Prop :=
  ∀ (s : State) (i : Instr) (a d0 d1 : Byte) (chunk : List Byte), s.params.legal →
    Spec.IsFill s.params i a (d0 :: d1 :: chunk) →
    let off := 256 * d0.toNat + d1.toNat
    off = 0 ∨ ((s.entry a).active = true ∧ off = (s.entry a).fillLen) →
    off + chunk.length ≤ s.params.canBufCapacity →
    ∃ e, exec i s = .next { s with canRx := s.canRx.set a.toNat e a.isLt } ∧
      e.active = true ∧ e.fillLen = off + chunk.length ∧
      ∀ x, e.rbuf.byteAt x =
        if off ≤ x ∧ x < off + chunk.length then chunk[x - off]? else (s.entry a).rbuf.byteAt x

/-- PROCESS frames (43_can_rx.md R171, R172, R173): malformed, without an entry, with the wrong length, or a match, which clears
the entry and delivers the accumulated payload. -/
def Obligations.ProcessFrameCommitsOrFails : Prop :=
  ∀ (s : State) (i : Instr) (a : Byte) (d : List Byte), s.params.legal → Spec.IsProcess s.params i a d →
    (d.length < 2 → exec i s = .next (Spec.failed s a .malformed)) ∧
    (∀ d0 d1 rest, d = d0 :: d1 :: rest →
      let lc := 256 * d0.toNat + d1.toNat
      ((s.entry a).active = false → exec i s = .next { s with fail := s.fail ++ [(a, .noBuffer)] }) ∧
      ((s.entry a).active = true → (s.entry a).fillLen ≠ lc →
        exec i s = .next (Spec.failed s a .lengthMismatch)) ∧
      (∀ pl : List Byte, (s.entry a).active = true → (s.entry a).fillLen = lc → pl.length = lc →
        lc ≤ s.params.canBufCapacity → (s.entry a).rbuf.holds pl →
        exec i s = .next { s with
          canRx := s.canRx.set a.toNat { s.entry a with active := false, fillLen := 0 } a.isLt
          deliver := s.deliver ++ [(a, pl)] }))

/-- A frame of any other packet type is passed through unchanged and writes no state (43_can_rx.md R175). -/
def Obligations.OtherFramePassesThrough : Prop :=
  ∀ (s : State) (i : Instr) (id : CanId) (d : List Byte), Spec.IsOther s.params i id d →
    exec i s = .next { s with otherFrame := s.otherFrame ++ [{ id := id, data := d }] }

/-- Identifier bits 28:16 of a SHORT, FILL or PROCESS frame are ignored (30_encoding.md R84, 43_can_rx.md R160). -/
def Obligations.HighIdentifierBitsAreIgnored : Prop :=
  ∀ (s : State) (id id' : CanId) (d : List Byte), id.toNat % 65536 = id'.toNat % 65536 →
    Spec.typeOf id = s.params.typeShort.toNat ∨ Spec.typeOf id = s.params.typeFill.toNat ∨
      Spec.typeOf id = s.params.typeProcess.toNat →
    exec (.rx id d) s = exec (.rx id' d) s

/-- Keys are independent (43_can_rx.md R174): a frame of key `a` changes no other key's entry, and what it does to its entry and
to the ports depends on its own entry and the parameters alone. -/
def Obligations.ReassemblyKeysAreIndependent : Prop :=
  ∀ (s s' t : State) (i : Instr) (a : Byte), Spec.Keyed i a → exec i s = .next t →
    (∀ b, b ≠ a → t.entry b = s.entry b) ∧
    (s'.params = s.params → s'.entry a = s.entry a → ∃ t' dl fl ot, exec i s' = .next t' ∧
      t'.entry a = t.entry a ∧ t.deliver = s.deliver ++ dl ∧ t'.deliver = s'.deliver ++ dl ∧
      t.fail = s.fail ++ fl ∧ t'.fail = s'.fail ++ fl ∧
      t.otherFrame = s.otherFrame ++ ot ∧ t'.otherFrame = s'.otherFrame ++ ot)

/-- A reassembly error is reported once, on `Can.fail` only, with a code from 1 to 5, and leaves its key inactive
(60_exceptions.md R203, R204). -/
def Obligations.ReassemblyErrorsAreReportedOnce : Prop :=
  (∀ (s t : State) (i : Instr) (a : Byte), Spec.Keyed i a → exec i s = .next t →
    t.fail = s.fail ∨ ∃ r, t.fail = s.fail ++ [(a, r)] ∧ t.deliver = s.deliver ∧ t.otherFrame = s.otherFrame ∧
      (t.entry a).active = false) ∧
  FailReason.outOfOrder.code = 1 ∧ FailReason.overflow.code = 2 ∧ FailReason.lengthMismatch.code = 3 ∧
  FailReason.noBuffer.code = 4 ∧ FailReason.malformed.code = 5

/-- Replay law (42_can_tx.md R153): the frames that CAN_SEND_BUFFER sent whole, presented to `CanRx` in order, deliver the
payload exactly once and report no failure, whatever the key's state before; the key is inactive afterwards when the payload was
fragmented, and unchanged when it was not. -/
def Obligations.ReplayedFramesDeliverThePayload : Prop :=
  ∀ (s s0 t0 : State) (a : Byte) (p : List Byte) (frames : List CanFrame),
    s.params.legal → s0.params = s.params → p.length ≤ 65535 →
    p.length ≤ 6 ∨ p.length ≤ s.params.canBufCapacity →
    exec (.sendbuf a p) s0 = .next t0 → t0.sendReturned = s0.sendReturned ++ [.ok] →
    t0.txFrame = s0.txFrame ++ frames →
    ∃ e, execAll (replay frames) s = .next { s with
        deliver := s.deliver ++ [(a, p)], canRx := s.canRx.set a.toNat e a.isLt } ∧
      (7 ≤ p.length → e.active = false ∧ e.fillLen = 0) ∧ (p.length ≤ 6 → e = s.entry a)

/-- Order law (43_can_rx.md R176): FILL frames presented in any order but that of increasing offset, each once, and then the
commit, deliver nothing, whatever the key's state before. -/
def Obligations.ReorderedFragmentsDeliverNothing : Prop :=
  ∀ (s : State) (a : Byte) (p : List Byte) (frames : List CanFrame), s.params.legal →
    7 ≤ p.length → p.length ≤ s.params.canBufCapacity →
    frames.Perm (Spec.fills s.params a p) → frames ≠ Spec.fills s.params a p →
    ∃ t, execAll (replay (frames ++ [Spec.commit s.params a p.length])) s = .next t ∧ t.deliver = s.deliver

/-- Loss and duplication (43_can_rx.md R177), for an inactive key that receives one fragmented sequence. -/
def Obligations.LossAndDuplicationOutcomes : Prop :=
  ∀ (s : State) (a : Byte) (p : List Byte), s.params.legal →
    7 ≤ p.length → p.length ≤ s.params.canBufCapacity → (s.entry a).active = false →
    let fills := Spec.fills s.params a p
    let commit := Spec.commit s.params a p.length
    let ends (frames : List CanFrame) (dl : List (Byte × List Byte)) (fl : List (Byte × FailReason)) (on : Bool) : Prop :=
      ∃ t, execAll (replay frames) s = .next t ∧ t.deliver = s.deliver ++ dl ∧ t.fail = s.fail ++ fl ∧
        (t.entry a).active = on
    (∀ j, 0 < j → j + 1 < fills.length →
      ends (fills.eraseIdx j ++ [commit]) [] [(a, .outOfOrder), (a, .noBuffer)] false) ∧
    ends (fills.dropLast ++ [commit]) [] [(a, .lengthMismatch)] false ∧
    ends (fills.tail ++ [commit]) [] [(a, .noBuffer)] false ∧
    ends fills [] [] true ∧
    ends (fills ++ fills ++ [commit]) [(a, p)] [] false ∧
    (∀ j, 0 < j → j < fills.length →
      ends (fills.take (j + 1) ++ fills.drop j ++ [commit]) [] [(a, .outOfOrder), (a, .noBuffer)] false) ∧
    ends (fills.take 1 ++ fills ++ [commit]) [(a, p)] [] false ∧
    ends (fills ++ [commit, commit]) [(a, p)] [(a, .noBuffer)] false

/-- Same-key collision (70_reset_and_hazards.md R227): of two 12-byte payloads A and B on one key, the frames A.fill(0),
B.fill(0), A.fill(6), A.commit deliver the first half of B and the second half of A. -/
def Obligations.SameKeyCollisionMixesPayloads : Prop :=
  ∀ (s : State) (a : Byte) (A B : List Byte), s.params.legal → A.length = 12 → B.length = 12 →
    12 ≤ s.params.canBufCapacity →
    ∃ t, execAll (replay [Spec.fillAt s.params a A 0, Spec.fillAt s.params a B 0, Spec.fillAt s.params a A 6,
        Spec.commit s.params a 12]) s = .next t ∧
      t.deliver = s.deliver ++ [(a, B.take 6 ++ A.drop 6)] ∧ t.fail = s.fail

/-! ## The whole machine -/

/-- Every step keeps the invariants of the codecs and of the reassembly entries (10_state.md R26, R28): the stores stay in
canonical form and within their sizes, every phase keeps what it promises, and an inactive key holds nothing. The fields that
the spec leaves unspecified in IDLE are bounded by R25's ranges alone, in which the model's values for a new instance lie
(log 8, log 14). -/
def Obligations.StepKeepsStateInvariant : Prop :=
  ∀ s t : State, s.Inv → step s = .next t → t.Inv

/-- The invariants hold at power-up of a block with any legal parameters, and at reset. Of the fields that the spec leaves
unspecified there they ask only R25's ranges, in which the model's zeros lie (log 8). -/
def Obligations.PowerUpMeetsStateInvariant : Prop :=
  (∀ p : Params, p.legal → (State.powerUp p).Inv) ∧ State.reset.Inv

/-- The values the spec gives at power-up (10_state.md R34): every codec in IDLE with empty ports, every key inactive with
nothing accumulated, every CAN port empty. The values of the fields it leaves unspecified are not stated. -/
def Obligations.PowerUpValues : Prop :=
  State.reset = State.powerUp Params.reference ∧
  ∀ p : Params,
    (State.powerUp p).codecs.length = p.nCodec ∧
    (∀ c ∈ (State.powerUp p).codecs, c.phase = .idle ∧ c.onPayload = [] ∧ c.transmit = []) ∧
    (∀ a, ((State.powerUp p).entry a).active = false ∧ ((State.powerUp p).entry a).fillLen = 0) ∧
    (State.powerUp p).txFrame = [] ∧ (State.powerUp p).deliver = [] ∧ (State.powerUp p).fail = [] ∧
    (State.powerUp p).otherFrame = []

/-- No step faults from a state that meets the invariants: no operation reads or writes a buffer outside its bounds
(20_memory.md R58), and no error stops the block (60_exceptions.md R200). -/
def Obligations.StepNeverFaults : Prop :=
  ∀ (s : State) (f : Fault), s.Inv → step s ≠ .fault f

/-- Every operation completes in its own step (20_memory.md R64), from every state that meets the invariants, if the codec
instance it names, where it names one, is there and open. -/
def Obligations.EveryOperationCompletes : Prop :=
  ∀ (s : State) (i : Instr), s.Inv → (∀ k, agentOf i = .codec k → ∃ c, s.openAt k c) → ∃ t, exec i s = .next t

/-- Every port is a sequence to which operations only append (10_state.md R24). -/
def Obligations.PortsOnlyGrow : Prop :=
  ∀ (s t : State) (i : Instr), exec i s = .next t →
    s.txFrame <+: t.txFrame ∧ s.deliver <+: t.deliver ∧ s.fail <+: t.fail ∧ s.otherFrame <+: t.otherFrame ∧
    ∀ (k : Nat) (c : Codec), s.codecs[k]? = some c →
      ∃ c' : Codec, t.codecs[k]? = some c' ∧ c.onPayload <+: c'.onPayload ∧ c.transmit <+: c'.transmit

/-- No step writes a parameter (10_state.md R32; that the parameters stand in the state is the model's choice, log 1). -/
def Obligations.StepNeverWritesParameters : Prop :=
  ∀ s t : State, step s = .next t → t.params = s.params

/-- Codec instances are disjoint (10_state.md R21): an operation on instance `k` changes that instance alone, what it makes of
it depends on that instance alone, and an operation of another unit changes no instance. -/
def Obligations.CodecInstancesAreIsolated : Prop :=
  (∀ (s t : State) (i : Instr) (k : Nat), agentOf i = .codec k → exec i s = .next t →
    ∃ c', t = Spec.withCodec s k c') ∧
  (∀ (s s' t : State) (i : Instr) (k : Nat), agentOf i = .codec k → exec i s = .next t →
    s'.params = s.params → s'.codecs[k]? = s.codecs[k]? →
    ∃ t', exec i s' = .next t' ∧ t'.codecs[k]? = t.codecs[k]?) ∧
  (∀ (s t : State) (i : Instr), (∀ k, agentOf i ≠ .codec k) → exec i s = .next t → t.codecs = s.codecs)

/-- Operations of different units commute (20_memory.md R61): in either order they give the same state and the same events on
every port. -/
def Obligations.OperationsOfDifferentUnitsCommute : Prop :=
  ∀ (s t u : State) (i j : Instr), agentOf i ≠ agentOf j → exec i s = .next t → exec j s = .next u →
    ∃ v, exec j t = .next v ∧ exec i u = .next v

/-! ## Decoding at the wire and frame interfaces -/

/-- What a byte at a codec's endpoint decodes to, in every phase (30_encoding.md R76, R80, R92): a start marker only in IDLE,
the end marker only in END, and everywhere else the plain byte; whichever it is, it does what CODEC_PROCESS_BYTE does with that
byte (the marker as an instruction of its own: the model's choice, log 17). -/
def Obligations.WireBytesDecodeByPhase : Prop :=
  ∀ (p : Params) (ph : Phase) (k : Nat) (b : Byte), ∃ i, decode p ph (.wireByte k b) = .ok (i, []) ∧
    (∀ s, exec i s = exec (.byte k b) s) ∧
    (ph = .idle → b = 0x02 → i = .wireStart1 k) ∧ (ph = .idle → b = 0x03 → i = .wireStart2 k) ∧
    (ph = .idle → b = 0x04 → i = .wireStart3 k) ∧ (ph = .endMark → b = 0x03 → i = .wireEnd k) ∧
    (¬ (ph = .idle ∧ (b = 0x02 ∨ b = 0x03 ∨ b = 0x04)) → ¬ (ph = .endMark ∧ b = 0x03) → i = .byte k b)

/-- A frame at the CAN interface (30_encoding.md R84, R85, R86): with up to eight data bytes it decodes in every phase to the
instruction of its class, with id[28:16], the key id[7:0] and the data as operands, which does what CAN_RX_FRAME does with that
frame (log 4); a step refuses it exactly where it has more than eight (the model's choice, log 23). -/
def Obligations.CanFramesActAsRxOrAreRefused : Prop :=
  (∀ (p : Params) (ph : Phase) (id : CanId) (d : List Byte), d.length ≤ 8 →
    ∃ i, decode p ph (.canFrame id d) = .ok (i, []) ∧ WellFormed p i ∧
      (∀ s : State, s.params = p → exec i s = exec (.rx id d) s) ∧
      (p.legal →
        (Spec.typeOf id = p.typeShort.toNat → ∃ hi a, i = .canShort hi a d ∧
          hi.toNat = id.toNat / 65536 ∧ a.toNat = Spec.addressOf id) ∧
        (Spec.typeOf id = p.typeFill.toNat → ∃ hi a, i = .canFill hi a d ∧
          hi.toNat = id.toNat / 65536 ∧ a.toNat = Spec.addressOf id) ∧
        (Spec.typeOf id = p.typeProcess.toNat → ∃ hi a, i = .canProcess hi a d ∧
          hi.toNat = id.toNat / 65536 ∧ a.toNat = Spec.addressOf id) ∧
        (Spec.typeOf id ≠ p.typeShort.toNat → Spec.typeOf id ≠ p.typeFill.toNat →
          Spec.typeOf id ≠ p.typeProcess.toNat → i = .canOther id d))) ∧
  (∀ (s : State) (id : CanId) (d : List Byte) (rest : List Input), s.input = .present (.canFrame id d) :: rest →
    ((∃ e, step s = .refused (.illFormed e)) ↔ 8 < d.length))
end

