-- ==== Sys2Proof/Tests/Slice0.lean ====
section
/-! SUPPORT. Tests. Expected values come from spec/95_test_vectors.md (named "V-…", "E…"), from a rule's own example, or from the
encoding tables of 30_encoding.md by hand. Theorems named witness_… show a concrete state and operands that meet all the
hypotheses of the obligation they name, each clause at a boundary value. -/

namespace Sys2Proof.Tests

open Sys2Proof.Machine

/-! ## Small states -/

/-- The state after reset but for codec instance 0. -/
def withCodec0 (c : Codec) : State := { State.reset with codecs := c :: List.replicate 3 Codec.powerUp }

/-- The state after reset but for the reassembly entry of key 5. -/
def withKey5 (e : Entry) : State := { State.reset with canRx := State.reset.canRx.set 5 e }

/-- The state after reset with the bus's answers in store. -/
def withAnswers (answers : List BusAnswer) : State := { State.reset with bus := { script := answers, drawn := 0 } }

/-- The state after reset with one item presented. -/
def presented (x : Encoded) : State := { State.reset with input := [.present x] }

/-- The bytes `b0`, `b0 + 1`, … of a store from address 0, `n` of them. -/
def rising (b0 : Byte) (n : Nat) : List Byte := (List.range n).map (fun i => b0 + BitVec.ofNat 8 i)

/-- A store that holds `bytes` from address 0. -/
def stored (bytes : List Byte) : Memory := bytes.zipIdx.map (fun x => (x.2, x.1))

/-- An active reassembly entry that has accumulated `bytes`. -/
def filled (bytes : List Byte) : Entry := { active := true, fillLen := bytes.length, rbuf := stored bytes }

/-- A codec in phase END that has received `bytes` and the checksum `c`. -/
def atEnd (bytes : List Byte) (c : U16) : Codec :=
  { Codec.powerUp with phase := .endMark, lenWidth := 2, lenGot := 2, len := BitVec.ofNat 24 bytes.length,
                       cursor := bytes.length, buf := stored bytes, crcRx := c }

/-- A codec in phase PAYLOAD with `len` bytes expected and `bytes` received. -/
def inPayload (len : U24) (bytes : List Byte) : Codec :=
  { Codec.powerUp with phase := .payload, lenWidth := 1, lenGot := 1, len := len, cursor := bytes.length,
                       buf := stored bytes }

/-- A codec in phase LENGTH. -/
def inLength (width got : Nat) (len : U24) : Codec :=
  { Codec.powerUp with phase := .length, lenWidth := width, lenGot := got, len := len }

/-- Parameters with `RX_CAPACITY = 16` (95_test_vectors.md E8). -/
def smallBuffer : Params := { Params.reference with rxCapacity := 16 }

/-- Parameters with `CAN_BUF_CAPACITY = 8` (95_test_vectors.md V-X25, V-X26). -/
def smallCan : Params := { Params.reference with canBufCapacity := 8 }

/-- What `f` reads from the next state, where there is one. -/
def look {α : Type} (o : Host.Outcome State Fault Refusal) (f : State → α) : Option α :=
  match o with
  | .next t => some (f t)
  | .fault _ => none
  | .refused _ => none

/-- The reason of a refusal, where there is one. -/
def refusal (o : Host.Outcome State Fault Refusal) : Option Refusal :=
  match o with
  | .refused r => some r
  | .next _ => none
  | .fault _ => none

/-! ## WellFormed refuses -/

theorem test_wf_bad_instance : ¬ WellFormed Params.reference (.reset 4) := by decide

theorem test_wf_instance_field : ¬ WellFormed { Params.reference with nCodec := 300 } (.byte 256 0x00) := by decide

theorem test_wf_operand_bytes (s : List Byte) (h : s.length = 4294967296) :
    ¬ WellFormed Params.reference (.crc16 s) := by
  show ¬ s.length < 4294967296
  omega

theorem test_wf_frame_data : ¬ WellFormed Params.reference (.rx 0x805 [0, 1, 2, 3, 4, 5, 6, 7, 8]) := by decide

theorem test_wf_other_type : ¬ WellFormed Params.reference (.canOther 0x705 []) := by decide

theorem test_wf_wire_instance : ¬ WellFormed Params.reference (.wireEnd 4) := by decide

theorem test_wf_last_instance : WellFormed Params.reference (.send 3 [0x01]) := by decide

/-! ## Decoding: words written out from the encoding tables -/

/-- 2.1: `crc16 [01 02 03]` as a byte stream. -/
theorem test_decode_crc16 : decode Params.reference .idle
    (.command [0x00, 0x00, 0x00, 0x00, 0x00, 0x00, 0x00, 0x03, 0x01, 0x02, 0x03]) = .ok (.crc16 [0x01, 0x02, 0x03], []) := by
  rfl

/-- V-S3: `reset c1` is H = 0x00000101. -/
theorem test_decode_reset : decode Params.reference .idle (.command [0x00, 0x00, 0x01, 0x01]) = .ok (.reset 1, []) := by
  rfl

/-- P3 line 1: `byte c1, 0x02` is 0x00020102; the byte after it is the next command's. -/
theorem test_decode_byte :
    decode Params.reference .idle (.command [0x00, 0x02, 0x01, 0x02, 0xFF]) = .ok (.byte 1 0x02, [0xFF]) := by
  rfl

/-- P3 line 23: `send c1, P` is 0x00000103, 0x00000009 and the bytes of P. -/
theorem test_decode_send : decode Params.reference .idle (.command [0x00, 0x00, 0x01, 0x03, 0x00, 0x00, 0x00, 0x09,
    0x21, 0x05, 0x10, 0x00, 0x01, 0x02, 0x03, 0x04, 0x05]) =
    .ok (.send 1 [0x21, 0x05, 0x10, 0x00, 0x01, 0x02, 0x03, 0x04, 0x05], []) := by
  rfl

/-- V-F3: H = 0x00120004, Lw = 0x00000007. -/
theorem test_decode_sendbuf : decode Params.reference .idle (.command [0x00, 0x12, 0x00, 0x04, 0x00, 0x00, 0x00, 0x07,
    0xA0, 0xA1, 0xA2, 0xA3, 0xA4, 0xA5, 0xA6]) =
    .ok (.sendbuf 0x12 [0xA0, 0xA1, 0xA2, 0xA3, 0xA4, 0xA5, 0xA6], []) := by
  rfl

/-- P2 line 3: `rx 0x508, [00 00 AA]` is 0x00030005, 0x00000508. -/
theorem test_decode_rx : decode Params.reference .idle
    (.command [0x00, 0x03, 0x00, 0x05, 0x00, 0x00, 0x05, 0x08, 0x00, 0x00, 0xAA]) = .ok (.rx 0x508 [0x00, 0x00, 0xAA], []) := by
  rfl

/-- V-X3's identifier: type 8, address 5, bits 28:16 all ones. -/
theorem test_decode_can_short :
    decode Params.reference .idle (.canFrame 0x1FFF0805 [0xAA]) = .ok (.canShort 0x1FFF 0x05 [0xAA], []) := by rfl

theorem test_decode_can_fill :
    decode Params.reference .idle (.canFrame 0x505 [0x00, 0x06, 0x07]) = .ok (.canFill 0 0x05 [0x00, 0x06, 0x07], []) := by
  rfl

theorem test_decode_can_process :
    decode Params.reference .idle (.canFrame 0x705 [0x00, 0x32]) = .ok (.canProcess 0 0x05 [0x00, 0x32], []) := by rfl

/-- V-X18's identifier: type 3. -/
theorem test_decode_can_other :
    decode Params.reference .idle (.canFrame 0x305 [0x01, 0x02, 0x03]) = .ok (.canOther 0x305 [0x01, 0x02, 0x03], []) := by
  rfl

theorem test_decode_wire_start1 : decode Params.reference .idle (.wireByte 0 0x02) = .ok (.wireStart1 0, []) := by rfl

theorem test_decode_wire_start2 : decode Params.reference .idle (.wireByte 0 0x03) = .ok (.wireStart2 0, []) := by rfl

theorem test_decode_wire_start3 : decode Params.reference .idle (.wireByte 0 0x04) = .ok (.wireStart3 0, []) := by rfl

theorem test_decode_wire_end : decode Params.reference .endMark (.wireByte 0 0x03) = .ok (.wireEnd 0, []) := by rfl

/-- A marker value inside a payload is a byte like any other (30_encoding.md R80). -/
theorem test_decode_wire_payload : decode Params.reference .payload (.wireByte 0 0x03) = .ok (.byte 0 0x03, []) := by rfl

/-- In CRC_HI, CRC_LO and LENGTH, and outside its own phase, a marker value is a plain byte too (30_encoding.md R76, R80). -/
theorem test_decode_wire_plain :
    decode Params.reference .crcHi (.wireByte 1 0x02) = .ok (.byte 1 0x02, []) ∧
    decode Params.reference .crcLo (.wireByte 1 0x03) = .ok (.byte 1 0x03, []) ∧
    decode Params.reference .length (.wireByte 1 0x04) = .ok (.byte 1 0x04, []) ∧
    decode Params.reference .endMark (.wireByte 1 0x04) = .ok (.byte 1 0x04, []) ∧
    decode Params.reference .idle (.wireByte 1 0x55) = .ok (.byte 1 0x55, []) := by
  decide

/-- A frame of nine data bytes does not decode (30_encoding.md R85; log 23). -/
theorem test_decode_frame_too_long :
    decode Params.reference .idle (.canFrame 0x805 (rising 0 9)) = .error .dlcTooLong := by
  decide

/-- Each condition of 30_encoding.md R72, on a header word or operand with that one thing wrong. -/
theorem test_decode_refuses :
    decodeCommand Params.reference [0x00, 0x00, 0x00, 0x06] = .error .reservedOp ∧
    decodeCommand Params.reference [0x00, 0x00, 0x00, 0x09] = .error .reservedLow ∧
    decodeCommand Params.reference [0x01, 0x00, 0x00, 0x01] = .error .reservedHigh ∧
    decodeCommand Params.reference [0x00, 0x00, 0x04, 0x01] = .error .badInstance ∧
    decodeCommand Params.reference [0x00, 0x05, 0x01, 0x04, 0, 0, 0, 0] = .error .strayInstance ∧
    decodeCommand Params.reference [0x00, 0x01, 0x00, 0x03, 0, 0, 0, 0] = .error .strayArg ∧
    decodeCommand Params.reference [0x00, 0x09, 0x00, 0x05, 0, 0, 0, 0, 0, 1, 2, 3, 4, 5, 6, 7, 8] = .error .dlcTooLong ∧
    decodeCommand Params.reference [0x00, 0x00, 0x00, 0x05, 0x20, 0, 0, 0] = .error .reservedIdBits ∧
    decodeCommand Params.reference [0x00, 0x00, 0x00, 0x00, 0, 0, 0, 2, 0xFF] = .error .truncated := by
  decide

/-- The encoder gives the words of the spec too. -/
theorem test_encode_words :
    encode Params.reference (.byte 1 0x02) = .command [0x00, 0x02, 0x01, 0x02] ∧
    encode Params.reference (.rx 0x508 [0x00, 0x00, 0xAA]) =
      .command [0x00, 0x03, 0x00, 0x05, 0x00, 0x00, 0x05, 0x08, 0x00, 0x00, 0xAA] ∧
    encode Params.reference (.canProcess 0 0x05 [0x00, 0x32]) = .canFrame 0x705 [0x00, 0x32] ∧
    encode Params.reference (.wireEnd 0) = .wireByte 0 0x03 := by
  decide

/-- Table words (log 5): a header word, a header and an operand word, an identifier, a marker. -/
theorem test_table_words :
    decodeTableWord 32 0x00550002 = some (.byte 0 0x55) ∧
    decodeTableWord 32 0x00000800 = some (.canShort 0 0x00 []) ∧
    decodeTableWord 32 0x00050004 = some (.sendbuf 0x05 []) ∧
    decodeTableWord 64 0x0000050500000005 = some (.rx 0x505 []) ∧
    decodeTableWord 8 0x04 = some (.wireStart3 0) := by
  decide

/-- `withFetchWord` presents the table word to the very next step. -/
theorem test_fetch_word :
    look (step (State.reset.withFetchWord 32 0x00000800)) (fun t => (t.deliver, t.input)) = some ([(0x00, [])], []) := by
  decide

/-! ## One step of each instruction -/

/-- V-R10. -/
theorem test_crc16_check_value :
    look (exec (.crc16 [0x31, 0x32, 0x33, 0x34, 0x35, 0x36, 0x37, 0x38, 0x39]) State.reset) (·.crcReturned) =
      some [0x31C3] := by
  set_option maxRecDepth 8000 in decide

/-- V-R20. -/
theorem test_crc16_append :
    look (exec (.crc16 [0x01, 0x02, 0x03, 0x61, 0x31]) State.reset) (·.crcReturned) = some [0x0000] := by
  set_option maxRecDepth 8000 in decide

/-- V-S2. -/
theorem test_reset_discards_partial_frame :
    look (exec (.reset 0) (withCodec0 (inPayload 3 [0x01]))) (fun t => t.codecs.map (fun c => (c.phase, c.onPayload))) =
      some [(.idle, []), (.idle, []), (.idle, []), (.idle, [])] := by
  decide

/-- V-S4: a command for an instance that is not there is refused. -/
theorem test_reset_bad_instance :
    refusal (step (presented (.command [0x00, 0x00, 0x04, 0x01]))) = some (.illFormed .badInstance) := by
  decide

/-- The example of 41_codec.md R116. -/
theorem test_byte_payload :
    look (exec (.byte 0 0x03) (withCodec0 (inPayload 3 [0x01, 0x02]))) (fun t => t.codecs.head?.map (fun c =>
      (c.phase, c.cursor, c.buf))) = some (some (.crcHi, 3, [(0, 0x01), (1, 0x02), (2, 0x03)])) := by
  decide

/-- The example of 41_codec.md R113: length 513 is rejected on its last byte. -/
theorem test_byte_length_too_long :
    look (exec (.byte 0 0x01) (withCodec0 (inLength 2 1 2))) (fun t => t.codecs.head?.map (·.phase)) =
      some (some .idle) := by
  decide

/-- V-T2. -/
theorem test_send_frame :
    look (exec (.send 0 [0x01, 0x02, 0x03]) State.reset) (fun t => t.codecs.head?.map (·.transmit)) =
      some (some [[0x02, 0x03, 0x01, 0x02, 0x03, 0x61, 0x31, 0x03]]) := by
  set_option maxRecDepth 8000 in decide

/-- V-T9. -/
theorem test_send_without_port :
    look (exec (.send 1 [0x01])
      { State.reset with params := { Params.reference with txPresent := [true, false, true, true] } })
      (fun t => t.codecs.map (·.transmit)) = some [[], [], [], []] := by
  decide

/-- V-F3. -/
theorem test_sendbuf_fragments :
    look (exec (.sendbuf 0x12 (rising 0xA0 7)) (withAnswers [.accept, .accept, .accept]))
      (fun t => (t.txFrame, t.sendReturned)) =
      some ([{ id := 0x512, data := [0x00, 0x00, 0xA0, 0xA1, 0xA2, 0xA3, 0xA4, 0xA5] },
             { id := 0x512, data := [0x00, 0x06, 0xA6] }, { id := 0x712, data := [0x00, 0x07] }], [.ok]) := by
  decide

/-- V-F8. -/
theorem test_sendbuf_abandons :
    look (exec (.sendbuf 3 (rising 0x00 13)) (withAnswers [.accept, .busy, .busy, .busy]))
      (fun t => (t.txFrame, t.sendReturned)) =
      some ([{ id := 0x503, data := [0x00, 0x00, 0x00, 0x01, 0x02, 0x03, 0x04, 0x05] }], [.abandoned]) := by
  decide

/-- V-X3. -/
theorem test_rx_ignores_high_bits :
    look (exec (.rx 0x1FFF0805 [0xAA]) State.reset) (·.deliver) = some [(0x05, [0xAA])] := by
  decide

/-- V-X8, after V-X7: data bytes of a commit from d[2] on are ignored. -/
theorem test_rx_commit_ignores_rest :
    look (exec (.rx 0x705 [0x00, 0x00, 0xEE]) (withKey5 (filled []))) (fun t => (t.deliver, (t.entry 5).active)) =
      some ([(0x05, [])], false) := by
  decide

/-- V-X2. -/
theorem test_can_short_eight_bytes :
    look (exec (.canShort 0 0x05 (rising 0x00 8)) State.reset) (·.deliver) = some [(0x05, rising 0x00 8)] := by
  decide

/-- V-X12, after V-X11. -/
theorem test_can_fill_appends :
    look (exec (.canFill 0 0x05 [0x00, 0x06, 0x07]) (withKey5 (filled (rising 0x01 6))))
      (fun t => (t.entry 5, t.fail)) = some (filled (rising 0x01 7), []) := by
  decide

/-- V-X23, third frame. -/
theorem test_can_fill_out_of_order :
    look (exec (.canFill 0 0x05 [0x00, 0x0C, 0x0D]) (withKey5 (filled (rising 0x01 6))))
      (fun t => ((t.entry 5).active, (t.entry 5).fillLen, t.fail)) = some (false, 0, [(0x05, .outOfOrder)]) := by
  decide

/-- V-X13. -/
theorem test_can_process_delivers :
    look (exec (.canProcess 0 0x05 [0x00, 0x07]) (withKey5 (filled (rising 0x01 7))))
      (fun t => (t.deliver, (t.entry 5).active)) = some ([(0x05, rising 0x01 7)], false) := by
  decide

/-- V-X15. -/
theorem test_can_process_mismatch :
    look (exec (.canProcess 0 0x05 [0x00, 0x08]) (withKey5 (filled (rising 0x01 7))))
      (fun t => (t.deliver, t.fail)) = some ([], [(0x05, .lengthMismatch)]) := by
  decide

/-- V-X18. -/
theorem test_can_other_passes :
    look (exec (.canOther 0x305 [0x01, 0x02, 0x03]) State.reset) (·.otherFrame) =
      some [{ id := 0x305, data := [0x01, 0x02, 0x03] }] := by
  decide

/-- 41_codec.md R112. -/
theorem test_wire_start1 :
    look (exec (.wireStart1 0) State.reset) (fun t => t.codecs.head?.map (fun c => (c.phase, c.lenWidth))) =
      some (some (.length, 1)) := by
  decide

/-- 41_codec.md R112: 0x03 in IDLE is a start marker. -/
theorem test_wire_start2 :
    look (exec (.wireStart2 0) State.reset) (fun t => t.codecs.head?.map (fun c => (c.phase, c.lenWidth))) =
      some (some (.length, 2)) := by
  decide

/-- V-C15. -/
theorem test_wire_start3 :
    look (exec (.wireStart3 0) State.reset) (fun t => t.codecs.head?.map (fun c => (c.phase, c.lenWidth, c.lenGot))) =
      some (some (.length, 3, 0)) := by
  decide

/-- V-C10: a wrong end marker drops the frame and does not start another. -/
theorem test_wire_start3_at_end :
    look (exec (.wireStart3 0) (withCodec0 (atEnd [0x01, 0x02, 0x03] 0x6131)))
      (fun t => t.codecs.head?.map (fun c => (c.phase, c.onPayload))) = some (some (.idle, [])) := by
  decide

/-- The example of 41_codec.md R119. -/
theorem test_wire_end_delivers :
    look (exec (.wireEnd 0) (withCodec0 (atEnd [0x01, 0x02, 0x03] 0x6131)))
      (fun t => t.codecs.head?.map (fun c => (c.phase, c.onPayload))) = some (some (.idle, [[0x01, 0x02, 0x03]])) := by
  set_option maxRecDepth 8000 in decide

/-- V-C11. -/
theorem test_wire_end_bad_checksum :
    look (exec (.wireEnd 0) (withCodec0 (atEnd [0x01, 0x02, 0x03] 0x6031)))
      (fun t => t.codecs.head?.map (fun c => (c.phase, c.onPayload))) = some (some (.idle, [])) := by
  set_option maxRecDepth 8000 in decide

/-! ## Witnesses: encoding and the step -/

theorem witness_DecodeOfEncodeIsIdentity :
    Params.reference.legal ∧ WellFormed Params.reference (.wireEnd 3) ∧ Phase.endMark = rowPhase (.wireEnd 3) ∧
    WellFormed Params.reference (.rx 0x1FFFFFFF (rising 0 8)) ∧
    ∀ k b, encode Params.reference (.rx 0x1FFFFFFF (rising 0 8)) ≠ .wireByte k b :=
  ⟨by decide, by decide, rfl, by decide, fun _ _ h => by cases h⟩

theorem witness_EncodeOfDecodeIsIdentity :
    decodeCommand Params.reference [0x00, 0x55, 0x03, 0x02, 0xFF] = .ok (.byte 3 0x55, [0xFF]) := by rfl

theorem witness_IllFormedCommandsAreRefused :
    (presented (.command [0x00, 0x00, 0x00, 0x06])).input = [.present (.command [0x00, 0x00, 0x00, 0x06])] ∧
    Spec.IllFormed Params.reference [0x00, 0x00, 0x00, 0x06] ∧
    ¬ Spec.IllFormed Params.reference [0x00, 0x00, 0x03, 0x01] := by
  refine ⟨rfl, ?_, ?_⟩ <;> unfold Spec.IllFormed <;> decide

theorem witness_StepRunsDecodedInstruction :
    (presented (.wireByte 3 0x04)).input = [.present (.wireByte 3 0x04)] ∧
    decode (presented (.wireByte 3 0x04)).params ((presented (.wireByte 3 0x04)).phaseFor (.wireByte 3 0x04))
      (.wireByte 3 0x04) = .ok (.wireStart3 3, []) ∧
    State.reset.codecs[3]? = some Codec.powerUp :=
  ⟨rfl, rfl, rfl⟩

theorem witness_StepWithoutInputChangesNothing : State.reset.input = [] := rfl

/-- Each marker in its phase; a marker value in another phase; the bytes next to the markers in IDLE and END. -/
theorem witness_WireBytesDecodeByPhase :
    (Phase.idle = .idle ∧ (0x02 : Byte) = 0x02 ∧ (0x03 : Byte) = 0x03 ∧ (0x04 : Byte) = 0x04) ∧
    (Phase.endMark = .endMark ∧ (0x03 : Byte) = 0x03) ∧
    (∀ ph ∈ [Phase.length, .payload, .crcHi, .crcLo], ∀ b ∈ [(0x02 : Byte), 0x03, 0x04],
      ¬ (ph = .idle ∧ (b = 0x02 ∨ b = 0x03 ∨ b = 0x04)) ∧ ¬ (ph = .endMark ∧ b = 0x03)) ∧
    (∀ b ∈ [(0x00 : Byte), 0x01, 0x05, 0xFF],
      ¬ (Phase.idle = .idle ∧ (b = 0x02 ∨ b = 0x03 ∨ b = 0x04)) ∧ ¬ (Phase.idle = .endMark ∧ b = 0x03)) ∧
    ∀ b ∈ [(0x02 : Byte), 0x04],
      ¬ (Phase.endMark = .idle ∧ (b = 0x02 ∨ b = 0x03 ∨ b = 0x04)) ∧ ¬ (Phase.endMark = .endMark ∧ b = 0x03) := by
  refine ⟨?_, ?_, ?_, ?_, ?_⟩ <;> decide

/-- Eight data bytes, and nine; each class, with the ignored bits and the key at the ends of their ranges. -/
theorem witness_CanFramesActAsRxOrAreRefused :
    (rising 0 8).length ≤ 8 ∧ State.reset.params = Params.reference ∧
    (presented (.canFrame 0x805 (rising 0 8))).input = .present (.canFrame 0x805 (rising 0 8)) :: [] ∧
    (presented (.canFrame 0x805 (rising 0 9))).input = .present (.canFrame 0x805 (rising 0 9)) :: [] ∧
    8 < (rising 0 9).length ∧ Params.reference.legal ∧
    Spec.typeOf 0x1FFF08FF = Params.reference.typeShort.toNat ∧ Spec.typeOf 0x500 = Params.reference.typeFill.toNat ∧
    Spec.typeOf 0x1FFF0700 = Params.reference.typeProcess.toNat ∧
    (Spec.typeOf 0x6FF ≠ Params.reference.typeShort.toNat ∧ Spec.typeOf 0x6FF ≠ Params.reference.typeFill.toNat ∧
      Spec.typeOf 0x6FF ≠ Params.reference.typeProcess.toNat) :=
  ⟨by decide, rfl, rfl, rfl, by decide, by decide, by decide, by decide, by decide, by decide⟩

/-! ## Witnesses: the CRC Engine -/

/-- `M(x) = 1` for the message `[01]`, and the bits of its checksum 0x1021 (V-R4). -/
theorem witness_Crc16ReturnsPolynomialRemainder :
    Spec.HasBits (Spec.messageBit [0x01]) (8 * [(0x01 : Byte)].length) 1 ∧
    Spec.HasBits (0x1021 : U16).getLsbD 16
      (Polynomial.X ^ 12 + Polynomial.X ^ 5 + 1 : Polynomial (ZMod 2)) := by
  constructor
  · intro i
    rw [Polynomial.coeff_one]
    by_cases h : i < 8
    · interval_cases i <;> decide
    · rw [if_neg (by omega), if_neg (fun ⟨h1, _⟩ => h h1)]
  · intro i
    rw [Polynomial.coeff_add, Polynomial.coeff_add, Polynomial.coeff_X_pow, Polynomial.coeff_X_pow, Polynomial.coeff_one]
    by_cases h : i < 16
    · interval_cases i <;> decide
    · rw [if_neg (by omega), if_neg (by omega), if_neg (by omega), if_neg (fun ⟨h1, _⟩ => h h1)]; rfl

/-- The vectors of V-R13. -/
theorem witness_CrcLaws : [(0x01 : Byte), 0x02, 0x03].length = [(0x10 : Byte), 0x20, 0x30].length := rfl

/-! ## Witnesses: the Packet Codec -/

theorem witness_ResetReturnsInstanceToIdle :
    (withCodec0 (inPayload 3 [0x01])).openAt 0 (inPayload 3 [0x01]) ∧ State.reset.openAt 3 Codec.powerUp :=
  ⟨⟨rfl, rfl⟩, rfl, rfl⟩

theorem witness_IdleByteSelectsWidthOrIsDiscarded :
    State.reset.openAt 0 Codec.powerUp ∧ Codec.powerUp.phase = .idle ∧
    ((0x01 : Byte) ≠ 0x02 ∧ (0x01 : Byte) ≠ 0x03 ∧ (0x01 : Byte) ≠ 0x04) ∧
    ((0x05 : Byte) ≠ 0x02 ∧ (0x05 : Byte) ≠ 0x03 ∧ (0x05 : Byte) ≠ 0x04) := by
  refine ⟨⟨rfl, rfl⟩, rfl, ?_, ?_⟩ <;> decide

/-- Lengths 512 and 513 against `MAX_PAYLOAD = 512`, length 0, and a field that is not complete yet. -/
theorem witness_LengthByteAccumulatesAndDecides :
    (∀ width got len, (withCodec0 (inLength width got len)).openAt 0 (inLength width got len)) ∧
    (∀ width got len, (inLength width got len).phase = .length) ∧
    (2 : U24).toNat < 65536 ∧ (0xFFFF : U24).toNat < 65536 ∧
    ((inLength 2 0 0).lenGot + 1 ≠ (inLength 2 0 0).lenWidth) ∧
    ((inLength 2 1 2).lenGot + 1 = (inLength 2 1 2).lenWidth ∧ Params.reference.maxPayload < 256 * 2 + 1) ∧
    ((inLength 1 0 0).lenGot + 1 = (inLength 1 0 0).lenWidth ∧ 256 * 0 + 0 ≤ Params.reference.maxPayload) ∧
    (256 * 2 + 0 ≤ Params.reference.maxPayload ∧ 256 * 2 + 0 ≠ 0) :=
  ⟨fun _ _ _ => ⟨rfl, rfl⟩, fun _ _ _ => rfl, by decide, by decide, by decide, by decide, by decide, by decide⟩

/-- The last byte that is stored, and the first that is not, with `RX_CAPACITY = 16`. -/
theorem witness_PayloadByteIsStoredBelowCapacity :
    (∀ n, ({ withCodec0 (inPayload 20 (rising 0 n)) with params := smallBuffer }).openAt 0 (inPayload 20 (rising 0 n))) ∧
    (∀ n, (inPayload 20 (rising 0 n)).phase = .payload) ∧
    (inPayload 20 (rising 0 15)).cursor < smallBuffer.rxCapacity ∧
    smallBuffer.rxCapacity ≤ (inPayload 20 (rising 0 16)).cursor :=
  ⟨fun _ => ⟨rfl, rfl⟩, fun _ => rfl, by decide, by decide⟩

theorem witness_ChecksumBytesAreTakenHighFirst :
    (withCodec0 { atEnd [] 0 with phase := .crcHi }).openAt 0 { atEnd [] 0 with phase := .crcHi } ∧
    (withCodec0 { atEnd [] 0x6100 with phase := .crcLo }).openAt 0 { atEnd [] 0x6100 with phase := .crcLo } :=
  ⟨⟨rfl, rfl⟩, rfl, rfl⟩

/-- A payload of exactly `RX_CAPACITY` bytes, and one of one byte more. -/
theorem witness_EndByteDeliversOrDrops :
    (∀ n c, ({ withCodec0 (atEnd (rising 0 n) c) with params := smallBuffer }).openAt 0 (atEnd (rising 0 n) c)) ∧
    (∀ n c, (atEnd (rising 0 n) c).phase = .endMark) ∧ (0x02 : Byte) ≠ 0x03 ∧
    smallBuffer.rxCapacity < (atEnd (rising 0 17) 0).len.toNat ∧
    (atEnd (rising 0 16) 0).len.toNat = (rising 0 16).length ∧ (rising 0 16).length ≤ smallBuffer.rxCapacity ∧
    (atEnd (rising 0 16) 0).buf.holds (rising 0 16) :=
  ⟨fun _ _ => ⟨rfl, rfl⟩, fun _ _ => rfl, by decide, by decide, by decide, by decide, by decide⟩

theorem witness_ByteAlwaysCompletes : (withCodec0 (atEnd [0x01] 0)).openAt 0 (atEnd [0x01] 0) := ⟨rfl, rfl⟩

/-- Fields of one and of three bytes, of the values `MAX_PAYLOAD` and one more, and of the value 0. -/
theorem witness_LengthFieldSpellsItsNumber :
    State.reset.openAt 3 Codec.powerUp ∧ Codec.powerUp.phase = .idle ∧
    (1 ≤ [(0x00 : Byte)].length ∧ [(0x00 : Byte)].length ≤ 3 ∧ Spec.number [0x00] ≤ Params.reference.maxPayload) ∧
    ([(0x00 : Byte), 0x02, 0x00].length ≤ 3 ∧ Spec.number [0x00, 0x02, 0x00] = Params.reference.maxPayload) ∧
    Params.reference.maxPayload < Spec.number [0x00, 0x02, 0x01] := by
  refine ⟨⟨rfl, rfl⟩, rfl, ?_, ?_, ?_⟩ <;> decide

/-- V-T2 and V-C2, sent by instance 1 and fed to instance 0; and 17 bytes for a codec with `RX_CAPACITY = 16`. -/
theorem witness_SentFrameIsDeliveredOnce :
    Params.reference.legal ∧ State.reset.openAt 0 Codec.powerUp ∧ Codec.powerUp.phase = .idle ∧
    [(0x01 : Byte), 0x02, 0x03].length ≤ Params.reference.maxPayload ∧
    [(0x01 : Byte), 0x02, 0x03].length ≤ Params.reference.rxCapacity ∧
    smallBuffer.legal ∧ (rising 0 16).length = smallBuffer.rxCapacity ∧
    (rising 0 17).length ≤ smallBuffer.maxPayload ∧ smallBuffer.rxCapacity < (rising 0 17).length ∧
    State.reset.openAt 1 Codec.powerUp ∧
    (∃ t0 cj, exec (.send 1 [0x01, 0x02, 0x03]) State.reset = .next t0 ∧ t0.codecs[1]? = some cj ∧
      cj.transmit = Codec.powerUp.transmit ++ [[0x02, 0x03, 0x01, 0x02, 0x03, 0x61, 0x31, 0x03]]) ∧
    ∃ t0 cj W, exec (.send 1 (rising 0 17)) State.reset = .next t0 ∧ t0.codecs[1]? = some cj ∧
      cj.transmit = Codec.powerUp.transmit ++ [W] :=
  ⟨by decide, ⟨rfl, rfl⟩, rfl, by decide, by decide, by decide, by decide, by decide, by decide, ⟨rfl, rfl⟩,
    ⟨_, _, rfl, rfl, by set_option maxRecDepth 8000 in decide⟩, _, _, _, rfl, rfl, rfl⟩

/-- The largest payload of a one-byte length field, the smallest that needs two bytes, `MAX_PAYLOAD` in three, and none. -/
theorem witness_AnyLengthWidthIsAccepted :
    State.reset.openAt 0 Codec.powerUp ∧ Codec.powerUp.phase = .idle ∧
    (rising 0 255).length < 256 ^ 1 ∧ (rising 0 256).length < 256 ^ 2 ∧ (rising 0 512).length < 256 ^ 3 ∧
    (rising 0 512).length ≤ Params.reference.maxPayload ∧ (rising 0 512).length ≤ Params.reference.rxCapacity ∧
    (rising 0 0).length < 256 ^ 1 := by
  simp only [rising, List.length_map, List.length_range]
  refine ⟨⟨rfl, rfl⟩, rfl, ?_, ?_, ?_, ?_, ?_, ?_⟩ <;> decide

/-- The frames of V-C10 and V-C11, and that of E2 with the low checksum byte 0x30; and a payload longer than `RX_CAPACITY = 16`
with a wrong end marker (E8's length). -/
theorem witness_CorruptedFrameDeliversNothing :
    State.reset.openAt 0 Codec.powerUp ∧ Codec.powerUp.phase = .idle ∧
    [(0x01 : Byte), 0x02, 0x03].length < 256 ^ 1 ∧
    [(0x01 : Byte), 0x02, 0x03].length ≤ Params.reference.maxPayload ∧
    (0x04 : Byte) ≠ 0x03 ∧ (0x60 : Byte) ≠ Spec.crcHiOf (crc16 [0x01, 0x02, 0x03]) ∧
    (0x30 : Byte) ≠ Spec.crcLoOf (crc16 [0x01, 0x02, 0x03]) ∧
    ({ State.reset with params := smallBuffer }).openAt 0 Codec.powerUp ∧
    (rising 0 20).length < 256 ^ 1 ∧ (rising 0 20).length ≤ smallBuffer.maxPayload ∧
    smallBuffer.rxCapacity < (rising 0 20).length := by
  refine ⟨⟨rfl, rfl⟩, rfl, ?_, ?_, ?_, ?_, ?_, ⟨rfl, rfl⟩, ?_, ?_, ?_⟩ <;> set_option maxRecDepth 8000 in decide

/-- One byte more than `RX_CAPACITY = 16`, and a whole `MAX_PAYLOAD`. -/
theorem witness_FrameBeyondCapacityIsDropped :
    ({ State.reset with params := smallBuffer }).openAt 0 Codec.powerUp ∧ Codec.powerUp.phase = .idle ∧
    (rising 0 17).length < 256 ^ 1 ∧ smallBuffer.rxCapacity < (rising 0 17).length ∧
    (rising 0 512).length < 256 ^ 2 ∧ (rising 0 512).length ≤ smallBuffer.maxPayload ∧
    ∀ x ∈ Codec.powerUp.buf, x.1 < smallBuffer.rxCapacity := by
  simp only [rising, List.length_map, List.length_range]
  refine ⟨⟨rfl, rfl⟩, rfl, ?_, ?_, ?_, ?_, ?_⟩ <;> decide

/-- `MAX_PAYLOAD` bytes with a transmit port, one byte more, and an instance without a port. -/
theorem witness_SendTransmitsTheWireFrame :
    Params.reference.legal ∧ State.reset.openAt 3 Codec.powerUp ∧
    (rising 0 512).length ≤ Params.reference.maxPayload ∧ Params.reference.txPresent[3]? = some true ∧
    Params.reference.maxPayload < (rising 0 513).length ∧
    ({ Params.reference with txPresent := [true, false, true, true] }).txPresent[1]? = some false := by
  simp only [rising, List.length_map, List.length_range]
  refine ⟨?_, ⟨rfl, rfl⟩, ?_, ?_, ?_, ?_⟩ <;> decide

theorem witness_ClosedInstanceIsRefused :
    ({ withCodec0 (inPayload 3 [0x01]) with input := [.closeEndpoint 0] }).codecs[0]? = some (inPayload 3 [0x01]) ∧
    ({ withCodec0 { Codec.powerUp with isOpen := false } with input := [.openEndpoint 0] }).codecs[0]? =
      some { Codec.powerUp with isOpen := false } ∧
    ({ Codec.powerUp with isOpen := false }).isOpen = false ∧ agentOf (.send 0 []) = .codec 0 :=
  ⟨rfl, rfl, rfl, rfl⟩

/-! ## Witnesses: the CAN fragmenter -/

/-- The lengths 0, 6 and 7 (42_can_tx.md R152). -/
theorem witness_SendbufEmitsItsFrameSequence :
    Params.reference.legal ∧ (rising 0 65535).length ≤ 65535 ∧
    (withAnswers [.accept]).bus.script =
      List.replicate (Spec.frames Params.reference 0xFF (rising 0 0)).length .accept ++ [] ∧
    (withAnswers [.accept, .busy]).bus.script =
      List.replicate (Spec.frames Params.reference 0xFF (rising 0 6)).length .accept ++ [.busy] ∧
    (withAnswers [.accept, .accept, .accept, .busy]).bus.script =
      List.replicate (Spec.frames Params.reference 0xFF (rising 0 7)).length .accept ++ [.busy] := by
  refine ⟨by decide, ?_, rfl, rfl, rfl⟩
  simp only [rising, List.length_map, List.length_range]
  decide

theorem witness_SendbufAlwaysReturnsAStatus :
    (List.replicate 65535 (0 : Byte)).length ≤ 65535 ∧ 65535 < (List.replicate 65536 (0 : Byte)).length := by
  simp only [List.length_replicate]
  decide

/-- Four frames (V-F9: accepted on the attempts 3, 1, 2 and 1), and refusal at the first, the second and the last of them. -/
theorem witness_SendbufAbandonsAfterMaxAttempts :
    (rising 0 13).length ≤ 65535 ∧ (∀ j ∈ [2, 0, 1, 0], j < Params.reference.txMaxAttempts) ∧
    [2, 0, 1, 0].length = (Spec.frames Params.reference 0x03 (rising 0 13)).length ∧
    (withAnswers [.busy, .busy, .accept, .accept, .busy, .accept, .accept]).bus.script =
      [2, 0, 1, 0].flatMap (fun j => List.replicate j BusAnswer.busy ++ [BusAnswer.accept]) ++ [] ∧
    ([] : List Nat).length < (Spec.frames Params.reference 0x03 (rising 0 13)).length ∧
    [0].length < (Spec.frames Params.reference 0x03 (rising 0 13)).length ∧
    [0, 0, 2].length < (Spec.frames Params.reference 0x03 (rising 0 13)).length ∧
    (withAnswers [.accept, .busy, .busy, .busy]).bus.script =
      [0].flatMap (fun j => List.replicate j BusAnswer.busy ++ [BusAnswer.accept]) ++
        List.replicate Params.reference.txMaxAttempts .busy ++ [] := by
  decide

theorem witness_SendbufFrameCounts :
    (∃ t, exec (.sendbuf 0x12 (rising 0xA0 6)) (withAnswers [.accept]) = .next t ∧ t.sendReturned = [.ok]) ∧
    (∃ t, exec (.sendbuf 0x12 (rising 0xA0 7)) (withAnswers [.accept, .accept, .accept]) = .next t ∧
      t.sendReturned = [.ok]) ∧
    (rising 0xA0 6).length ≤ 6 ∧ 7 ≤ (rising 0xA0 7).length ∧ (rising 0xA0 7).length ≤ 65535 :=
  ⟨⟨_, rfl, rfl⟩, ⟨_, rfl, rfl⟩, by decide, by decide, by decide⟩

/-! ## Witnesses: CAN reassembly -/

theorem witness_ShortFrameDelivers :
    Spec.IsShort Params.reference (.canShort 0x1FFF 0xFF (rising 0 8)) 0xFF (rising 0 8) ∧
    Spec.IsShort Params.reference (.rx 0x1FFF0805 []) 0x05 [] :=
  ⟨.inl ⟨_, rfl⟩, .inr ⟨_, rfl, by decide, by decide⟩⟩

/-- A frame of one byte; a stray fragment; an offset one too low and one too high; one byte past the end of the buffer. -/
theorem witness_FillFrameErrors :
    smallCan.legal ∧ Spec.IsFill smallCan (.rx 0x505 [0x00]) 0x05 [0x00] ∧ [(0x00 : Byte)].length < 2 ∧
    (∀ d0 d1 chunk, Spec.IsFill smallCan (.canFill 0 0x05 (d0 :: d1 :: chunk)) 0x05 (d0 :: d1 :: chunk)) ∧
    (256 * (0x00 : Byte).toNat + (0x01 : Byte).toNat ≠ 0 ∧ (State.reset.entry 0x05).active = false) ∧
    ((withKey5 (filled (rising 1 6))).entry 0x05).active = true ∧
    256 * (0x00 : Byte).toNat + (0x05 : Byte).toNat ≠ ((withKey5 (filled (rising 1 6))).entry 0x05).fillLen ∧
    256 * (0x00 : Byte).toNat + (0x07 : Byte).toNat ≠ ((withKey5 (filled (rising 1 6))).entry 0x05).fillLen ∧
    256 * (0x00 : Byte).toNat + (0x06 : Byte).toNat = ((withKey5 (filled (rising 1 6))).entry 0x05).fillLen ∧
    smallCan.canBufCapacity < 256 * (0x00 : Byte).toNat + (0x06 : Byte).toNat + (rising 7 3).length ∧
    ({ smallCan with canBufCapacity := 0 } : Params).canBufCapacity < 0 + (rising 1 1).length :=
  ⟨by decide, .inr ⟨_, rfl, by decide, by decide⟩, by decide, fun _ _ _ => .inl ⟨_, rfl⟩, ⟨by decide, by decide⟩,
    by decide, by decide, by decide, by decide, by decide, by decide⟩

/-- A restart of an active key; an append that fills the buffer of 8 bytes exactly (V-X25); an append of nothing. -/
theorem witness_FillFrameAppends :
    smallCan.legal ∧ Spec.IsFill smallCan (.canFill 0 0x05 (0x00 :: 0x06 :: rising 7 2)) 0x05 (0x00 :: 0x06 :: rising 7 2) ∧
    ((withKey5 (filled (rising 1 6))).entry 0x05).active = true ∧
    256 * (0x00 : Byte).toNat + (0x06 : Byte).toNat = ((withKey5 (filled (rising 1 6))).entry 0x05).fillLen ∧
    256 * (0x00 : Byte).toNat + (0x06 : Byte).toNat + (rising 7 2).length ≤ smallCan.canBufCapacity ∧
    Spec.IsFill smallCan (.rx 0x505 [0x00, 0x00]) 0x05 [0x00, 0x00] ∧
    256 * (0x00 : Byte).toNat + (0x00 : Byte).toNat = 0 :=
  ⟨by decide, .inl ⟨_, rfl⟩, by decide, by decide, by decide, .inr ⟨_, rfl, by decide, by decide⟩, by decide⟩

theorem witness_ProcessFrameCommitsOrFails :
    smallCan.legal ∧ Spec.IsProcess smallCan (.rx 0x705 [0x00]) 0x05 [0x00] ∧ [(0x00 : Byte)].length < 2 ∧
    (∀ d0 d1 rest, Spec.IsProcess smallCan (.canProcess 0 0x05 (d0 :: d1 :: rest)) 0x05 (d0 :: d1 :: rest)) ∧
    (State.reset.entry 0x05).active = false ∧
    ((withKey5 (filled (rising 1 8))).entry 0x05).active = true ∧
    ((withKey5 (filled (rising 1 8))).entry 0x05).fillLen ≠ 256 * (0x00 : Byte).toNat + (0x07 : Byte).toNat ∧
    ((withKey5 (filled (rising 1 8))).entry 0x05).fillLen ≠ 256 * (0x00 : Byte).toNat + (0x09 : Byte).toNat ∧
    ((withKey5 (filled (rising 1 8))).entry 0x05).fillLen = 256 * (0x00 : Byte).toNat + (0x08 : Byte).toNat ∧
    (rising 1 8).length = 256 * (0x00 : Byte).toNat + (0x08 : Byte).toNat ∧
    256 * (0x00 : Byte).toNat + (0x08 : Byte).toNat ≤ smallCan.canBufCapacity ∧
    ((withKey5 (filled (rising 1 8))).entry 0x05).rbuf.holds (rising 1 8) :=
  ⟨by decide, .inr ⟨_, rfl, by decide, by decide⟩, by decide, fun _ _ _ => .inl ⟨_, rfl⟩, by decide, by decide, by decide,
    by decide, by decide, by decide, by decide, by decide⟩

theorem witness_OtherFramePassesThrough :
    Spec.IsOther Params.reference (.canOther 0x305 [0x01]) 0x305 [0x01] ∧
    Spec.IsOther Params.reference (.rx 0x1FFF0605 []) 0x1FFF0605 [] :=
  ⟨.inl rfl, .inr ⟨rfl, by decide, by decide, by decide⟩⟩

theorem witness_HighIdentifierBitsAreIgnored :
    (0x1FFF0805 : CanId).toNat % 65536 = (0x805 : CanId).toNat % 65536 ∧
    Spec.typeOf 0x1FFF0805 = Params.reference.typeShort.toNat ∧
    Spec.typeOf 0x1FFF0505 = Params.reference.typeFill.toNat ∧
    Spec.typeOf 0x1FFF0705 = Params.reference.typeProcess.toNat := by
  decide

theorem witness_ReassemblyKeysAreIndependent :
    Spec.Keyed (.rx 0x505 [0x00, 0x00, 0xAA]) 0x05 ∧ Spec.Keyed (.canProcess 0 0x05 []) 0x05 ∧
    (∃ t, exec (.rx 0x505 [0x00, 0x00, 0xAA]) State.reset = .next t) ∧ (0x04 : Byte) ≠ 0x05 ∧
    (withAnswers [.busy]).params = State.reset.params ∧ (withAnswers [.busy]).entry 0x05 = State.reset.entry 0x05 :=
  ⟨.inr ⟨_, _, rfl, by decide⟩, .inl ⟨_, _, .inr (.inr rfl)⟩, ⟨_, rfl⟩, by decide, rfl, rfl⟩

theorem witness_ReassemblyErrorsAreReportedOnce :
    Spec.Keyed (.canProcess 0 0x05 [0x00, 0x00]) 0x05 ∧
    ∃ t, exec (.canProcess 0 0x05 [0x00, 0x00]) State.reset = .next t ∧ t.fail = State.reset.fail ++ [(0x05, .noBuffer)] :=
  ⟨.inl ⟨_, _, .inr (.inr rfl)⟩, _, rfl, rfl⟩

/-- Payloads of 6 bytes (one SHORT frame) and of 7 bytes. -/
theorem witness_ReplayedFramesDeliverThePayload :
    smallCan.legal ∧ (rising 0 7).length ≤ smallCan.canBufCapacity ∧
    (∃ t, exec (.sendbuf 0x05 (rising 0 7)) { withAnswers [.accept, .accept, .accept] with params := smallCan } = .next t ∧
      t.sendReturned = [] ++ [.ok] ∧ t.txFrame = [] ++ Spec.frames smallCan 0x05 (rising 0 7)) ∧
    (∃ t, exec (.sendbuf 0x05 (rising 0 6)) { withAnswers [.accept] with params := smallCan } = .next t ∧
      t.sendReturned = [] ++ [.ok] ∧ t.txFrame = [] ++ Spec.frames smallCan 0x05 (rising 0 6)) :=
  ⟨by decide, by decide, ⟨_, rfl, rfl, by decide⟩, ⟨_, rfl, rfl, by decide⟩⟩

/-- The two FILL frames of a 7-byte payload, swapped. -/
theorem witness_ReorderedFragmentsDeliverNothing :
    smallCan.legal ∧ 7 ≤ (rising 0 7).length ∧ (rising 0 8).length ≤ smallCan.canBufCapacity ∧
    (Spec.fills smallCan 0x05 (rising 0 7)).reverse.Perm (Spec.fills smallCan 0x05 (rising 0 7)) ∧
    (Spec.fills smallCan 0x05 (rising 0 7)).reverse ≠ Spec.fills smallCan 0x05 (rising 0 7) :=
  ⟨by decide, by decide, by decide, List.reverse_perm _, by decide⟩

/-- The least payload with two FILL frames, and one with three, so that a middle one can be lost. -/
theorem witness_LossAndDuplicationOutcomes :
    Params.reference.legal ∧ 7 ≤ (rising 0 7).length ∧ (rising 0 13).length ≤ Params.reference.canBufCapacity ∧
    (State.reset.entry 0x05).active = false ∧
    0 < 1 ∧ 1 + 1 < (Spec.fills Params.reference 0x05 (rising 0 13)).length ∧
    1 < (Spec.fills Params.reference 0x05 (rising 0 7)).length := by
  decide

theorem witness_SameKeyCollisionMixesPayloads :
    Params.reference.legal ∧ (rising 0x10 12).length = 12 ∧ (rising 0x40 12).length = 12 ∧
    12 ≤ Params.reference.canBufCapacity := by
  decide

/-! ## Witnesses: the whole machine -/

/-- A state in the middle of everything: instance 0 has received one byte of three, key 5 has accumulated six bytes, and a
commit for it is presented. -/
def busy : State :=
  { withKey5 (filled (rising 1 6)) with
    codecs := inPayload 3 [0x01] :: List.replicate 3 Codec.powerUp
    input := [.present (.canFrame 0x705 [0x00, 0x06])] }

theorem busy_codecs : ∀ c ∈ busy.codecs, c = inPayload 3 [0x01] ∨ c = Codec.powerUp := by decide

theorem inPayload_inv : (inPayload 3 [0x01]).Inv Params.reference where
  bufWf := by decide
  bufWithin := by decide
  widths := by decide
  cursorRange := by decide
  lengthPhase := by decide
  payloadPhase := by decide
  trailerPhase := by decide
  stored := fun _ _ a h _ => by
    obtain rfl : a = 0 := Nat.lt_one_iff.mp h
    decide
  crcLoPhase := by decide
  closedIdle := by decide

theorem codec_powerUp_inv : Codec.powerUp.Inv Params.reference where
  bufWf := by decide
  bufWithin := by decide
  widths := by decide
  cursorRange := by decide
  lengthPhase := by decide
  payloadPhase := by decide
  trailerPhase := by decide
  stored := fun h => absurd rfl h
  crcLoPhase := by decide
  closedIdle := by decide

theorem filled_inv : (filled (rising 1 6)).Inv Params.reference where
  rbufWf := by decide
  rbufWithin := by decide
  inactiveEmpty := by decide
  fillRange := by decide
  stored := fun a h => by
    have h : a < 6 := h
    interval_cases a <;> decide

theorem entry_powerUp_inv : Entry.powerUp.Inv Params.reference where
  rbufWf := by decide
  rbufWithin := by decide
  inactiveEmpty := by decide
  fillRange := by decide
  stored := fun _ h => absurd h (Nat.not_lt_zero _)

theorem busy_entries (a : Byte) : busy.entry a = filled (rising 1 6) ∨ busy.entry a = Entry.powerUp := by
  show (State.reset.canRx.set 5 (filled (rising 1 6)))[a.toNat]'a.isLt = _ ∨ _
  by_cases h : 5 = a.toNat
  · exact .inl (by rw [Vector.getElem_set, if_pos h])
  · right
    show (State.reset.canRx.set 5 (filled (rising 1 6)))[a.toNat]'a.isLt = _
    rw [Vector.getElem_set, if_neg h]
    exact Vector.getElem_replicate a.isLt

theorem busy_inv : busy.Inv where
  paramsLegal := by decide
  codecCount := rfl
  codecInv := fun c h => by
    rcases busy_codecs c h with rfl | rfl
    · exact inPayload_inv
    · exact codec_powerUp_inv
  entryInv := fun a => by
    rcases busy_entries a with h | h <;> rw [h]
    · exact filled_inv
    · exact entry_powerUp_inv

theorem witness_StepKeepsStateInvariant :
    busy.Inv ∧ ∃ t, step busy = .next t ∧ t.deliver = [(0x05, rising 1 6)] :=
  ⟨busy_inv, _, rfl, by decide⟩

theorem witness_PowerUpMeetsStateInvariant : smallBuffer.legal ∧ Params.reference.legal := by decide

theorem witness_StepNeverFaults : busy.Inv := busy_inv

theorem witness_EveryOperationCompletes :
    busy.Inv ∧ (∀ k, agentOf (.byte 0 0x03) = .codec k → ∃ c, busy.openAt k c) ∧
    ∀ k, agentOf (.rx 0x705 [0x00, 0x06]) = .codec k → ∃ c, busy.openAt k c :=
  ⟨busy_inv, (fun k h => by injection h with h; subst h; exact ⟨_, rfl, rfl⟩), (fun k h => by cases h)⟩

theorem witness_PortsOnlyGrow :
    (∃ t, exec (.canProcess 0 0x05 [0x00, 0x06]) busy = .next t) ∧ busy.codecs[0]? = some (inPayload 3 [0x01]) :=
  ⟨⟨_, rfl⟩, rfl⟩

theorem witness_StepNeverWritesParameters : ∃ t, step busy = .next t := ⟨_, rfl⟩

theorem witness_CodecInstancesAreIsolated :
    agentOf (.byte 0 0x02) = .codec 0 ∧ (∃ t, exec (.byte 0 0x02) busy = .next t) ∧
    (withCodec0 (inPayload 3 [0x01])).params = busy.params ∧
    (withCodec0 (inPayload 3 [0x01])).codecs[0]? = busy.codecs[0]? ∧
    (∀ k, agentOf (.canProcess 0 0x05 [0x00, 0x06]) ≠ .codec k) ∧
    ∃ t, exec (.canProcess 0 0x05 [0x00, 0x06]) busy = .next t :=
  ⟨rfl, ⟨_, rfl⟩, rfl, rfl, (fun _ h => by cases h), ⟨_, rfl⟩⟩

theorem witness_OperationsOfDifferentUnitsCommute :
    agentOf (.byte 0 0x02) ≠ agentOf (.canProcess 0 0x05 [0x00, 0x06]) ∧ agentOf (.byte 0 0x02) ≠ agentOf (.reset 1) ∧
    (∃ t, exec (.byte 0 0x02) busy = .next t) ∧ (∃ t, exec (.canProcess 0 0x05 [0x00, 0x06]) busy = .next t) ∧
    ∃ t, exec (.reset 1) busy = .next t :=
  ⟨by decide, by decide, ⟨_, rfl⟩, ⟨_, rfl⟩, ⟨_, rfl⟩⟩

end Sys2Proof.Tests
end

section
/-! The state family (10_state.md). First what every operation and every step can do to the parameters, the ports and the codec
instances (R21, R24, R32); then the invariants of R26 and R28, unit by unit, and the step that keeps them. -/

namespace Sys2Proof.Machine

/-! ## What an operation can do to the state -/

/-- The four shapes an operation's next state can have, one per unit (10_state.md R20, R23). -/
theorem exec_next_cases {s t : State} {i : Instr} (h : exec i s = .next t) :
    (∃ k c c', agentOf i = .codec k ∧ s.openAt k c ∧ t = s.setCodec k c' ∧
      c.onPayload <+: c'.onPayload ∧ c.transmit <+: c'.transmit) ∨
    (agentOf i = .canRx ∧ ∃ r : RxEffect, t = r.apply (keyOf i) s) ∨
    (agentOf i = .crcEngine ∧ ∃ v, t = { s with crcReturned := s.crcReturned ++ [v] }) ∨
    (agentOf i = .canTx ∧ ∃ frames status bus, t = { s with
      txFrame := s.txFrame ++ frames, sendReturned := s.sendReturned ++ [status], bus := bus }) := by
  cases ha : agentOf i with
  | codec k =>
    obtain ⟨g, hg, hports⟩ := exec_codec ha s.params
    rw [hg s rfl] at h
    obtain ⟨c, c', hopen, hc, ht⟩ := State.onCodec_next h
    injection hc with hc
    obtain ⟨_, hpay, htx⟩ := hports c
    exact .inl ⟨k, c, c', rfl, hopen, ht, hc ▸ hpay, hc ▸ htx⟩
  | canRx =>
    rcases exec_canRx ha s.params (s.entry (keyOf i)) with ⟨f, hf⟩ | ⟨r, _, hr⟩
    · rw [hf s rfl rfl] at h; cases h
    · rw [hr s rfl rfl] at h
      injection h with h
      exact .inr (.inl ⟨rfl, r, h.symm⟩)
  | crcEngine =>
    cases i <;> cases ha
    injection h with h
    exact .inr (.inr (.inl ⟨rfl, _, h.symm⟩))
  | canTx =>
    cases i <;> cases ha
    injection h with h
    exact .inr (.inr (.inr ⟨rfl, _, _, _, h.symm⟩))

theorem exec_params {s t : State} {i : Instr} (h : exec i s = .next t) : t.params = s.params := by
  rcases exec_next_cases h with ⟨_, _, _, _, _, rfl, _⟩ | ⟨_, _, rfl⟩ | ⟨_, _, rfl⟩ | ⟨_, _, _, _, rfl⟩ <;> rfl

theorem closeEndpoint_next {k : Nat} {s t : State} (h : closeEndpoint k s = .next t) :
    ∃ c, s.codecs[k]? = some c ∧ t = s.setCodec k { c with isOpen := false, phase := .idle } := by
  unfold closeEndpoint at h
  split at h
  · cases h
  · injection h with h
    exact ⟨_, ‹_›, h.symm⟩

theorem openEndpoint_next {k : Nat} {s t : State} (h : openEndpoint k s = .next t) :
    t = s.setCodec k Codec.powerUp := by
  unfold openEndpoint at h
  split at h
  · cases h
  · injection h with h
    exact h.symm

/-- A step that answers a next state found nothing presented, or took one item off the queue (10_state.md R23; log 3) and ran
the operation or the endpoint's change it stands for. -/
theorem step_next_cases {s t : State} (h : step s = .next t) :
    t = s ∨ ∃ rest, (∃ i, exec i { s with input := rest } = .next t) ∨
      (∃ k, closeEndpoint k { s with input := rest } = .next t) ∨
      ∃ k, openEndpoint k { s with input := rest } = .next t := by
  rcases step_cases s with ⟨_, hs⟩ | ⟨_, _, i, _, _, _, hs⟩ | ⟨_, _, _, _, _, hs⟩ | ⟨k, _, _, hs⟩ | ⟨k, _, _, hs⟩ <;>
    rw [hs] at h
  · cases h; exact .inl rfl
  · exact .inr ⟨_, .inl ⟨i, h⟩⟩
  · cases h
  · exact .inr ⟨_, .inr (.inl ⟨k, h⟩)⟩
  · exact .inr ⟨_, .inr (.inr ⟨k, h⟩)⟩

/-- Settles O47: neither an operation nor an endpoint's change writes the parameters. -/
theorem stepNeverWritesParameters : Obligations.StepNeverWritesParameters := by
  intro s t h
  rcases step_next_cases h with rfl | ⟨rest, ⟨i, hi⟩ | ⟨k, hk⟩ | ⟨k, hk⟩⟩
  · rfl
  · exact (exec_params hi).trans rfl
  · obtain ⟨_, _, rfl⟩ := closeEndpoint_next hk
    rfl
  · rw [openEndpoint_next hk]
    rfl

/-! ## Ports (R24) -/

/-- Where the codec instances are as they were, so are their ports. -/
theorem codecPorts_prefix_of_codecs_eq {s t : State} (h : t.codecs = s.codecs) (k : Nat) (c : Codec)
    (hc : s.codecs[k]? = some c) :
    ∃ c' : Codec, t.codecs[k]? = some c' ∧ c.onPayload <+: c'.onPayload ∧ c.transmit <+: c'.transmit :=
  ⟨c, h ▸ hc, List.prefix_refl _, List.prefix_refl _⟩

/-- Where one codec is replaced by one with longer ports, no codec's ports lose an event. -/
theorem codecPorts_prefix_of_setCodec {s : State} {k : Nat} {c c' : Codec} (hk : s.codecs[k]? = some c)
    (hpay : c.onPayload <+: c'.onPayload) (htx : c.transmit <+: c'.transmit) (j : Nat) (d : Codec)
    (hj : s.codecs[j]? = some d) :
    ∃ d' : Codec, (s.setCodec k c').codecs[j]? = some d' ∧ d.onPayload <+: d'.onPayload ∧
      d.transmit <+: d'.transmit := by
  by_cases hkj : k = j
  · subst hkj
    obtain rfl : c = d := Option.some.inj (hk.symm.trans hj)
    exact ⟨c', State.getElem_setCodec_self hk c', hpay, htx⟩
  · exact ⟨d, (State.getElem_setCodec_ne s c' hkj).trans hj, List.prefix_refl _, List.prefix_refl _⟩

/-- Settles O46: each unit's operation appends to its own ports and leaves the others alone. -/
theorem portsOnlyGrow : Obligations.PortsOnlyGrow := by
  intro s t i h
  rcases exec_next_cases h with ⟨k, c, c', _, ⟨hk, _⟩, rfl, hpay, htx⟩ | ⟨_, r, rfl⟩ | ⟨_, v, rfl⟩ | ⟨_, fs, st, b, rfl⟩
  · exact ⟨List.prefix_refl _, List.prefix_refl _, List.prefix_refl _, List.prefix_refl _,
      codecPorts_prefix_of_setCodec hk hpay htx⟩
  · exact ⟨List.prefix_refl _, List.prefix_append _ _, List.prefix_append _ _, List.prefix_append _ _,
      codecPorts_prefix_of_codecs_eq rfl⟩
  · exact ⟨List.prefix_refl _, List.prefix_refl _, List.prefix_refl _, List.prefix_refl _,
      codecPorts_prefix_of_codecs_eq rfl⟩
  · exact ⟨List.prefix_append _ _, List.prefix_refl _, List.prefix_refl _, List.prefix_refl _,
      codecPorts_prefix_of_codecs_eq rfl⟩

/-! ## Codec instances are disjoint (R21) -/

/-- What an operation makes of codec `k` is a function of that codec and the parameters. -/
theorem exec_codec_congr {s s' t : State} {i : Instr} {k : Nat} (hi : agentOf i = .codec k) (h : exec i s = .next t)
    (hp : s'.params = s.params) (hk : s'.codecs[k]? = s.codecs[k]?) :
    ∃ t', exec i s' = .next t' ∧ t'.codecs[k]? = t.codecs[k]? := by
  obtain ⟨g, hg, _⟩ := exec_codec hi s.params
  rw [hg s rfl] at h
  obtain ⟨c, c', ⟨hc, hopen⟩, hgc, rfl⟩ := State.onCodec_next h
  have hc' : s'.codecs[k]? = some c := hk.trans hc
  refine ⟨s'.setCodec k c', ?_, ?_⟩
  · rw [hg s' hp]
    exact State.onCodec_ok ⟨hc', hopen⟩ hgc
  · rw [State.getElem_setCodec_self hc', State.getElem_setCodec_self hc]

/-- Settles O48. -/
theorem codecInstancesAreIsolated : Obligations.CodecInstancesAreIsolated := by
  refine ⟨fun s t i k hi h => ?_, fun s s' t i k hi h hp hk => exec_codec_congr hi h hp hk, fun s t i hi h => ?_⟩
  · rcases exec_next_cases h with ⟨j, c, c', hj, _, ht, _⟩ | ⟨ha, _⟩ | ⟨ha, _⟩ | ⟨ha, _⟩
    · obtain rfl : j = k := Agent.codec.inj (hj.symm.trans hi)
      exact ⟨c', ht⟩
    all_goals rw [hi] at ha; cases ha
  · rcases exec_next_cases h with ⟨k, _, _, ha, _⟩ | ⟨_, _, rfl⟩ | ⟨_, _, rfl⟩ | ⟨_, _, _, _, rfl⟩
    · exact absurd ha (hi k)
    all_goals rfl

/-! ## Power-up (R34) -/

theorem Codec.powerUp_inv (p : Params) : Codec.powerUp.Inv p where
  bufWf := List.Pairwise.nil
  bufWithin := fun _ hx => absurd hx List.not_mem_nil
  widths := by decide
  cursorRange := Nat.zero_le _
  lengthPhase := nofun
  payloadPhase := nofun
  trailerPhase := nofun
  stored := fun hidle => absurd rfl hidle
  crcLoPhase := nofun
  closedIdle := fun _ => rfl

theorem Entry.powerUp_inv (p : Params) : Entry.powerUp.Inv p where
  rbufWf := List.Pairwise.nil
  rbufWithin := fun _ hx => absurd hx List.not_mem_nil
  inactiveEmpty := fun _ => rfl
  fillRange := Nat.zero_le _
  stored := fun _ ha => absurd ha (Nat.not_lt_zero _)

theorem State.powerUp_inv {p : Params} (hp : p.legal) : (State.powerUp p).Inv where
  paramsLegal := hp
  codecCount := List.length_replicate
  codecInv := fun _ hc => List.eq_of_mem_replicate hc ▸ Codec.powerUp_inv p
  entryInv := fun a => (State.entry_powerUp p a).symm ▸ Entry.powerUp_inv p

/-- Settles O42: the reset state is the power-up of the reference configuration, which is legal. -/
theorem powerUpMeetsStateInvariant : Obligations.PowerUpMeetsStateInvariant :=
  ⟨fun _ hp => State.powerUp_inv hp, State.powerUp_inv (by decide)⟩

/-- Settles O43. -/
theorem powerUpValues : Obligations.PowerUpValues := by
  refine ⟨rfl, fun p => ⟨List.length_replicate, fun c hc => ?_, fun a => ?_, rfl, rfl, rfl, rfl⟩⟩
  · rw [List.eq_of_mem_replicate hc]; exact ⟨rfl, rfl, rfl⟩
  · rw [State.entry_powerUp]; exact ⟨rfl, rfl⟩

end Sys2Proof.Machine
end

section
/-! The invariants of 10_state.md R26 and R28: every operation of each unit keeps its own, and so every step keeps the machine's. -/

namespace Sys2Proof.Machine

/-! ## A codec's byte step (41_codec.md R111) -/

/-- A codec in IDLE owes only what holds in every phase. -/
theorem Codec.Inv.of_idle {p : Params} {c c' : Codec} (h : c.Inv p) (hphase : c'.phase = .idle) (hbuf : c'.buf = c.buf)
    (hcursor : c'.cursor = c.cursor) (hwidths : c'.lenWidth ≤ 3 ∧ c'.lenGot ≤ 3) : c'.Inv p where
  bufWf := hbuf ▸ h.bufWf
  bufWithin := hbuf ▸ h.bufWithin
  widths := hwidths
  cursorRange := hcursor ▸ h.cursorRange
  lengthPhase := by simp [hphase]
  payloadPhase := by simp [hphase]
  trailerPhase := by simp [hphase]
  stored := fun hidle => absurd hphase hidle
  crcLoPhase := by simp [hphase]
  closedIdle := fun _ => hphase

/-- An open codec owes nothing of what R127 asks of a closed one. -/
theorem Codec.closedIdle_of_isOpen {c : Codec} (hopen : c.isOpen = true) {q : Prop} (hclosed : c.isOpen = false) : q :=
  absurd (hopen.symm.trans hclosed) nofun

/-- A start marker promises a width of 1 to 3 and starts from length 0 (41_codec.md R112). -/
theorem byteIdle_inv {p : Params} {c : Codec} (h : c.Inv p) (hopen : c.isOpen = true) (b : Byte) :
    (byteIdle b c).Inv p := by
  rcases byteIdle_cases b c with ⟨w, hw, heq⟩ | ⟨_, heq⟩ <;> rw [heq]
  · obtain ⟨hlo, hhi⟩ := markerWidth_range hw
    exact { h with
      widths := ⟨hhi, Nat.zero_le _⟩
      lengthPhase := fun _ => ⟨hlo, hlo, by simp⟩
      payloadPhase := nofun
      trailerPhase := nofun
      stored := fun _ hlength => absurd rfl hlength
      crcLoPhase := nofun
      closedIdle := Codec.closedIdle_of_isOpen hopen }
  · exact h

/-- Below 16 bits, one more length byte multiplies by 256 and adds (30_encoding.md R77). -/
theorem pushLength_toNat {len : U24} (h : len.toNat < 65536) (b : Byte) :
    (pushLength len b).toNat = 256 * len.toNat + b.toNat := by
  have hb : b.toNat < 2 ^ 8 := b.isLt
  have hor : len.toNat <<< 8 ||| b.toNat = len.toNat <<< 8 + b.toNat := (Nat.shiftLeft_add_eq_or_of_lt hb _).symm
  have hlen : len.toNat <<< 8 < 2 ^ 24 := by rw [Nat.shiftLeft_eq]; omega
  rw [pushLength, BitVec.toNat_or, BitVec.toNat_shiftLeft, BitVec.toNat_setWidth, Nat.mod_eq_of_lt hlen,
    Nat.mod_eq_of_lt (by omega), hor, Nat.shiftLeft_eq]
  omega

/-- One more length byte keeps the length within the bytes received, while another is still to come. -/
theorem pushLength_lt {len : U24} {got : Nat} (hgot : got ≤ 1) (h : len.toNat < 256 ^ got) (b : Byte) :
    (pushLength len b).toNat < 256 ^ (got + 1) := by
  have hle : 256 ^ got ≤ 256 ^ 1 := Nat.pow_le_pow_right (by decide) hgot
  rw [pushLength_toNat (by omega), Nat.pow_succ]
  have := b.isLt
  omega

/-- A length byte counts on, or is the last one and rejects the length, skips the payload or begins it (41_codec.md R113,
R115). -/
theorem byteLength_inv {p : Params} {c : Codec} (h : c.Inv p) (hopen : c.isOpen = true) (hphase : c.phase = .length)
    (b : Byte) : (byteLength p b c).Inv p := by
  obtain ⟨hwidth, hgot, hlen⟩ := h.lengthPhase hphase
  obtain ⟨hwidth3, _⟩ := h.widths
  unfold byteLength
  dsimp only
  split
  · split
    · exact h.of_idle rfl rfl rfl ⟨hwidth3, by dsimp only; omega⟩
    · split
      · rename_i hmax hzero
        exact { h with
          widths := ⟨hwidth3, by dsimp only; omega⟩
          cursorRange := Nat.zero_le _
          lengthPhase := nofun
          payloadPhase := nofun
          trailerPhase := fun _ => ⟨by dsimp only; omega, by simp [hzero]⟩
          stored := fun _ _ a ha => absurd ha (Nat.not_lt_zero a)
          crcLoPhase := nofun
          closedIdle := Codec.closedIdle_of_isOpen hopen }
      · rename_i hmax hzero
        exact { h with
          widths := ⟨hwidth3, by dsimp only; omega⟩
          cursorRange := Nat.zero_le _
          lengthPhase := nofun
          payloadPhase := fun _ => ⟨by dsimp only; omega,
            Nat.pos_of_ne_zero fun hlen0 => hzero (BitVec.eq_of_toNat_eq hlen0)⟩
          trailerPhase := nofun
          stored := fun _ _ a ha => absurd ha (Nat.not_lt_zero a)
          crcLoPhase := nofun
          closedIdle := Codec.closedIdle_of_isOpen hopen }
  · rename_i hmore
    exact { h with
      widths := ⟨hwidth3, by dsimp only; omega⟩
      lengthPhase := fun _ => ⟨hwidth, by dsimp only; omega, pushLength_lt (by omega) hlen b⟩
      payloadPhase := by simp [hphase]
      trailerPhase := by simp [hphase]
      stored := fun _ hlength => absurd hphase hlength
      crcLoPhase := by simp [hphase]
      closedIdle := Codec.closedIdle_of_isOpen hopen }

/-- A byte of the store that something has written stays written. -/
theorem Memory.isSome_byteAt_setByte {m : Memory} {a x : Nat} {b : Byte} (h : x = a ∨ (m.byteAt x).isSome) :
    ((m.setByte a b).byteAt x).isSome := by
  rw [Memory.byteAt_setByte]
  split
  · rfl
  · exact h.resolve_left ‹_›

/-- The receive buffer after a payload byte (41_codec.md R116), as `bytePayload_eq` gives it. -/
def Codec.bufAfter (p : Params) (b : Byte) (c : Codec) : Memory :=
  if c.cursor < p.rxCapacity then c.buf.setByte c.cursor b else c.buf

theorem Codec.Inv.bufAfter_wf {p : Params} {c : Codec} (h : c.Inv p) (b : Byte) : (c.bufAfter p b).wf := by
  unfold Codec.bufAfter
  split
  · exact Memory.setByte_wf h.bufWf _ _
  · exact h.bufWf

theorem Codec.Inv.bufAfter_within {p : Params} {c : Codec} (h : c.Inv p) (b : Byte) :
    ∀ x ∈ c.bufAfter p b, x.1 < p.rxCapacity := by
  unfold Codec.bufAfter
  split
  · rename_i hroom
    intro x hx
    rcases Memory.mem_setByte hx with rfl | hx
    · exact hroom
    · exact h.bufWithin x hx
  · exact h.bufWithin

theorem Codec.Inv.bufAfter_stored {p : Params} {c : Codec} (h : c.Inv p) (hphase : c.phase = .payload) (b : Byte) :
    ∀ a, a < c.cursor + 1 → a < p.rxCapacity → ((c.bufAfter p b).byteAt a).isSome := by
  intro a ha hcap
  have hbefore : a < c.cursor → (c.buf.byteAt a).isSome := fun hlt =>
    h.stored (by simp [hphase]) (by simp [hphase]) a hlt hcap
  unfold Codec.bufAfter
  split
  · refine Memory.isSome_byteAt_setByte ?_
    rcases Nat.lt_succ_iff_lt_or_eq.mp ha with hlt | heq
    · exact .inr (hbefore hlt)
    · exact .inl heq
  · exact hbefore (by omega)

/-- A payload byte is received, and the last one leads to CRC_HI (41_codec.md R116). -/
theorem bytePayload_inv {p : Params} {k : Nat} {b : Byte} {c c' : Codec} (h : c.Inv p) (hopen : c.isOpen = true)
    (hphase : c.phase = .payload) (hc' : bytePayload p k b c = .ok c') : c'.Inv p := by
  obtain ⟨hmax, hcursor⟩ := h.payloadPhase hphase
  rw [bytePayload_eq] at hc'
  injection hc' with hc'
  subst hc'
  have hnext : ∀ ph, (ph = .payload ∧ c.cursor + 1 < c.len.toNat) ∨ (ph = .crcHi ∧ c.cursor + 1 = c.len.toNat) →
      Codec.Inv p { c with buf := c.bufAfter p b, cursor := c.cursor + 1, phase := ph } := by
    intro ph hph
    exact { h with
      bufWf := h.bufAfter_wf b
      bufWithin := h.bufAfter_within b
      cursorRange := by dsimp only; omega
      lengthPhase := by rcases hph with ⟨rfl, _⟩ | ⟨rfl, _⟩ <;> nofun
      payloadPhase := by rcases hph with ⟨rfl, hlt⟩ | ⟨rfl, _⟩ <;> simp [*]
      trailerPhase := by rcases hph with ⟨rfl, _⟩ | ⟨rfl, heq⟩ <;> simp [*]
      stored := fun _ _ => h.bufAfter_stored hphase b
      crcLoPhase := by rcases hph with ⟨rfl, _⟩ | ⟨rfl, _⟩ <;> nofun
      closedIdle := Codec.closedIdle_of_isOpen hopen }
  refine hnext _ ?_
  split
  · exact .inr ⟨rfl, ‹_›⟩
  · exact .inl ⟨rfl, by omega⟩

/-- With its high byte received, the low byte of the checksum is still 0 (41_codec.md R117). -/
theorem crcHigh_low (b : Byte) : (crcHigh b).extractLsb' 0 8 = 0 := by
  ext i hi
  simp [crcHigh, hi]

/-- Inside the trailer (phases CRC_HI, CRC_LO and END) a codec keeps what it owes when the phase and the checksum move on, if it
owes CRC_LO its low byte. -/
theorem Codec.Inv.trailer {p : Params} {c : Codec} (h : c.Inv p) (hopen : c.isOpen = true)
    (hphase : c.phase = .crcHi ∨ c.phase = .crcLo) {ph : Phase} (hph : ph = .crcLo ∨ ph = .endMark) {crc : U16}
    (hcrc : ph = .crcLo → crc.extractLsb' 0 8 = 0) : Codec.Inv p { c with crcRx := crc, phase := ph } :=
  { h with
    lengthPhase := by rcases hph with rfl | rfl <;> nofun
    payloadPhase := by rcases hph with rfl | rfl <;> nofun
    trailerPhase := fun _ => h.trailerPhase (hphase.imp_right .inl)
    stored := fun _ _ => h.stored (by rcases hphase with hp | hp <;> simp [hp])
      (by rcases hphase with hp | hp <;> simp [hp])
    crcLoPhase := hcrc
    closedIdle := Codec.closedIdle_of_isOpen hopen }

/-- END returns to IDLE in every case (41_codec.md R119). -/
theorem byteEnd_inv {p : Params} {k : Nat} {b : Byte} {c c' : Codec} (h : c.Inv p) (hc' : byteEnd p k b c = .ok c') :
    c'.Inv p := by
  rw [byteEnd_eq] at hc'
  injection hc' with hc'
  subst hc'
  split <;> exact h.of_idle rfl rfl rfl h.widths

/-- CODEC_PROCESS_BYTE keeps the codec's invariant, in every phase. -/
theorem processByte_inv {p : Params} {k : Nat} {b : Byte} {c c' : Codec} (h : c.Inv p) (hopen : c.isOpen = true)
    (hc' : processByte p k b c = .ok c') : c'.Inv p := by
  unfold processByte at hc'
  split at hc'
  case h_1 => injection hc' with hc'; exact hc' ▸ byteIdle_inv h hopen b
  case h_2 hphase => injection hc' with hc'; exact hc' ▸ byteLength_inv h hopen hphase b
  case h_3 hphase => exact bytePayload_inv h hopen hphase hc'
  case h_4 hphase =>
    injection hc' with hc'
    exact hc' ▸ h.trailer hopen (.inl hphase) (.inl rfl) (fun _ => crcHigh_low b)
  case h_5 hphase => injection hc' with hc'; exact hc' ▸ h.trailer hopen (.inr hphase) (.inr rfl) nofun
  case h_6 => exact byteEnd_inv h hc'

/-! ## Reassembly entries -/

/-- discard(a) (43_can_rx.md R162). -/
theorem Entry.Inv.discard {p : Params} {e : Entry} (h : e.Inv p) : e.discard.Inv p where
  rbufWf := h.rbufWf
  rbufWithin := h.rbufWithin
  inactiveEmpty := fun _ => rfl
  fillRange := Nat.zero_le _
  stored := fun a ha => absurd ha (Nat.not_lt_zero a)

/-- A FILL frame at offset 0 starts its key anew (43_can_rx.md R166). -/
theorem Entry.Inv.restart {p : Params} {e : Entry} (h : e.Inv p) : Entry.Inv p { e with active := true, fillLen := 0 } where
  rbufWf := h.rbufWf
  rbufWithin := h.rbufWithin
  inactiveEmpty := nofun
  fillRange := Nat.zero_le _
  stored := fun a ha => absurd ha (Nat.not_lt_zero a)

/-- A chunk that fits, stored at the end of what an active key has accumulated (43_can_rx.md R168). -/
theorem Entry.Inv.append {p : Params} {e : Entry} (h : e.Inv p) (hactive : e.active = true) {chunk : List Byte}
    (hroom : e.fillLen + chunk.length ≤ p.canBufCapacity) : (e.append e.fillLen chunk).Inv p where
  rbufWf := Memory.setBytes_wf h.rbufWf _ _
  rbufWithin := Memory.setBytes_within h.rbufWithin hroom
  inactiveEmpty := fun hinactive => by simp [Entry.append, hactive] at hinactive
  fillRange := hroom
  stored := fun a ha => by
    have ha : a < e.fillLen + chunk.length := ha
    simp only [Entry.append, Memory.byteAt_setBytes]
    split
    · rw [List.getElem?_eq_getElem (by omega)]; rfl
    · exact h.stored a (by omega)

/-! ## The machine -/

/-- The invariant reads the parameters, the codec instances and the reassembly entries alone. -/
theorem State.Inv.of_units_eq {s t : State} (h : s.Inv) (hparams : t.params = s.params) (hcodecs : t.codecs = s.codecs)
    (hcanRx : t.canRx = s.canRx) : t.Inv where
  paramsLegal := hparams ▸ h.paramsLegal
  codecCount := by rw [hparams, hcodecs]; exact h.codecCount
  codecInv := by rw [hparams, hcodecs]; exact h.codecInv
  entryInv := fun a => by
    have hentry : t.entry a = s.entry a := by simp only [State.entry, hcanRx]
    rw [hparams, hentry]
    exact h.entryInv a

theorem State.Inv.setCodec {s : State} (h : s.Inv) (k : Nat) {c : Codec} (hc : c.Inv s.params) : (s.setCodec k c).Inv where
  paramsLegal := h.paramsLegal
  codecCount := List.length_set.trans h.codecCount
  codecInv := fun d hd => by
    rcases List.mem_or_eq_of_mem_set hd with hd | rfl
    · exact h.codecInv d hd
    · exact hc
  entryInv := h.entryInv

theorem State.Inv.setEntry {s : State} (h : s.Inv) (a : Byte) {e : Entry} (he : e.Inv s.params) : (s.setEntry a e).Inv where
  paramsLegal := h.paramsLegal
  codecCount := h.codecCount
  codecInv := h.codecInv
  entryInv := fun b => by
    by_cases hb : b = a
    · rw [hb, State.entry_setEntry_self]; exact he
    · rw [State.entry_setEntry_ne s e hb]; exact h.entryInv b

theorem State.Inv.failKey {s : State} (h : s.Inv) (a : Byte) (r : FailReason) : (s.failKey a r).Inv :=
  (h.setEntry a (h.entryInv a).discard).of_units_eq rfl rfl rfl

/-- An operation on an open codec keeps the machine's invariant if it keeps the codec's. -/
theorem State.Inv.onCodec {s t : State} {k : Nat} {f : Codec → Except Fault Codec} (h : s.Inv)
    (hf : ∀ c c', c.Inv s.params → c.isOpen = true → f c = .ok c' → c'.Inv s.params) (ht : s.onCodec k f = .next t) :
    t.Inv := by
  obtain ⟨c, c', ⟨hc, hopen⟩, hfc, rfl⟩ := State.onCodec_next ht
  exact h.setCodec k (hf c c' (h.codecInv c (List.mem_of_getElem? hc)) hopen hfc)

theorem execByte_inv {s t : State} {k : Nat} {b : Byte} (h : s.Inv) (ht : execByte k b s = .next t) : t.Inv :=
  h.onCodec (fun _ _ hc hopen => processByte_inv hc hopen) ht

theorem execReset_inv {s t : State} {k : Nat} (h : s.Inv) (ht : execReset k s = .next t) : t.Inv := by
  refine h.onCodec (fun c c' hc _ hc' => ?_) ht
  injection hc' with hc'
  exact hc' ▸ hc.of_idle rfl rfl rfl hc.widths

/-- CODEC_SEND touches no receive field (41_codec.md R125). -/
theorem execSend_inv {s t : State} {k : Nat} {w : List Byte} (h : s.Inv) (ht : execSend k w s = .next t) : t.Inv := by
  refine h.onCodec (fun c c' hc _ hc' => ?_) ht
  split at hc'
  · cases hc'; exact hc
  · split at hc'
    · cases hc'; exact { hc with }
    · cases hc'; exact hc

/-- A FILL frame restarts or extends its key, drops it with an error, or is ignored (43_can_rx.md R165). -/
theorem rxFill_inv {s t : State} {a : Byte} {d : List Byte} (h : s.Inv) (ht : rxFill a d s = .next t) : t.Inv := by
  have he := h.entryInv a
  rw [rxFill_eq] at ht
  injection ht with ht
  subst ht
  unfold fillResult
  split
  · split
    · split
      · exact h.failKey a _
      · rename_i hroom
        refine h.setEntry a ?_
        simpa [Entry.append] using he.restart.append rfl (by simpa using hroom)
    · split
      · exact h
      · split
        · exact h.failKey a _
        · split
          · exact h.failKey a _
          · rename_i hactive hoff hroom
            rw [Decidable.not_not.mp hoff] at hroom ⊢
            exact h.setEntry a (he.append (by simpa using hactive) (by omega))
  · exact h.failKey a _

/-- A PROCESS frame reports, or drops its key and reports or delivers (43_can_rx.md R171 to R173). -/
theorem rxProcess_inv {s t : State} {a : Byte} {d : List Byte} (h : s.Inv) (ht : rxProcess a d s = .next t) :
    t.Inv := by
  rcases rxProcess_cases a d s with ⟨_, heq⟩ | ⟨_, _, _, _, ⟨_, heq⟩ | ⟨_, _, heq⟩ | ⟨_, _, _, heq⟩ | ⟨_, _, _, heq⟩⟩ <;>
    rw [heq] at ht <;> cases ht
  · exact h.failKey a _
  · exact h.of_units_eq rfl rfl rfl
  · exact h.failKey a _
  · exact (h.setEntry a (h.entryInv a).discard).of_units_eq rfl rfl rfl

theorem rxShort_inv {s t : State} {a : Byte} {d : List Byte} (h : s.Inv) (ht : rxShort a d s = .next t) : t.Inv := by
  cases ht; exact h.of_units_eq rfl rfl rfl

theorem rxOther_inv {s t : State} {id : CanId} {d : List Byte} (h : s.Inv) (ht : rxOther id d s = .next t) : t.Inv := by
  cases ht; exact h.of_units_eq rfl rfl rfl

theorem execRx_inv {s t : State} {id : CanId} {d : List Byte} (h : s.Inv) (ht : execRx id d s = .next t) : t.Inv := by
  unfold execRx at ht
  split at ht
  · exact rxShort_inv h ht
  · split at ht
    · exact rxFill_inv h ht
    · split at ht
      · exact rxProcess_inv h ht
      · exact rxOther_inv h ht

/-- Every operation keeps the invariant. -/
theorem exec_inv {s t : State} {i : Instr} (h : s.Inv) (ht : exec i s = .next t) : t.Inv := by
  cases i with
  | crc16 bytes => cases ht; exact h.of_units_eq rfl rfl rfl
  | sendbuf a p => cases ht; exact h.of_units_eq rfl rfl rfl
  | reset k => exact execReset_inv h ht
  | byte k b => exact execByte_inv h ht
  | wireStart1 k => exact execByte_inv h ht
  | wireStart2 k => exact execByte_inv h ht
  | wireStart3 k => exact execByte_inv h ht
  | wireEnd k => exact execByte_inv h ht
  | send k p => exact execSend_inv h ht
  | rx id d => exact execRx_inv h ht
  | canShort hi a d => exact rxShort_inv h ht
  | canFill hi a d => exact rxFill_inv h ht
  | canProcess hi a d => exact rxProcess_inv h ht
  | canOther id d => exact rxOther_inv h ht

/-- A closed codec is in IDLE (41_codec.md R127). -/
theorem closeEndpoint_inv {s t : State} {k : Nat} (h : s.Inv) (ht : closeEndpoint k s = .next t) : t.Inv := by
  obtain ⟨c, hc, rfl⟩ := closeEndpoint_next ht
  have hinv := h.codecInv c (List.mem_of_getElem? hc)
  exact h.setCodec k (hinv.of_idle rfl rfl rfl hinv.widths)

theorem openEndpoint_inv {s t : State} {k : Nat} (h : s.Inv) (ht : openEndpoint k s = .next t) : t.Inv :=
  openEndpoint_next ht ▸ h.setCodec k (Codec.powerUp_inv _)

/-- Settles O41: taking an item off the queue touches no unit, and what each kind of item does keeps the invariant. -/
theorem stepKeepsStateInvariant : Obligations.StepKeepsStateInvariant := by
  intro s t h ht
  have hinput : ∀ rest, State.Inv { s with input := rest } := fun _ => h.of_units_eq rfl rfl rfl
  rcases step_next_cases ht with rfl | ⟨rest, ⟨i, hi⟩ | ⟨k, hk⟩ | ⟨k, hk⟩⟩
  · exact h
  · exact exec_inv (hinput rest) hi
  · exact closeEndpoint_inv (hinput rest) hk
  · exact openEndpoint_inv (hinput rest) hk

end Sys2Proof.Machine
end

section
/-! The memory family (20_memory.md). What a step does with the item at the head of the queue (R59); that no operation leaves the
bounds of a store and every one completes (R58, R64); and that operations of different units commute, because what an operation
of one unit reads and writes, no other unit writes (R61). -/

namespace Sys2Proof.Machine

/-! ## Taking an item off the queue (R59) -/

/-- A wire byte is decoded in the phase of the codec it goes to (30_encoding.md R92). -/
theorem State.phaseFor_wireByte {s : State} {k : Nat} {c : Codec} (hc : s.codecs[k]? = some c) (b : Byte) :
    s.phaseFor (.wireByte k b) = c.phase := by
  simp only [State.phaseFor, hc]

theorem State.fetch_of_decode_ok {s : State} {x : Encoded} {i : Instr} {left : List Byte}
    (hdecode : decode s.params (s.phaseFor x) x = .ok (i, left)) (rest : List Input) :
    s.fetch x rest = .ok (i, { s with input := restOfInput left rest }) := by
  simp only [State.fetch, hdecode]

theorem step_of_fetch_ok {s s' : State} {x : Encoded} {rest : List Input} {i : Instr}
    (hinput : s.input = .present x :: rest) (hfetch : s.fetch x rest = .ok (i, s')) : step s = exec i s' := by
  simp only [step, hinput, hfetch]

/-- Settles O5. -/
theorem stepRunsDecodedInstruction : Obligations.StepRunsDecodedInstruction :=
  ⟨fun _ _ rest _ _ hinput hdecode => step_of_fetch_ok hinput (State.fetch_of_decode_ok hdecode rest),
    fun _ _ b _ hc => State.phaseFor_wireByte hc b, fun _ => rfl, fun _ _ _ => rfl⟩

/-! ## Every operation completes (R58, R64) -/

/-- An operation on a codec that is there and open completes, whatever the codec holds (41_codec.md R111). -/
theorem exec_codec_completes {s : State} {i : Instr} {k : Nat} {c : Codec} (hi : agentOf i = .codec k)
    (hopen : s.openAt k c) : ∃ t, exec i s = .next t := by
  obtain ⟨g, hg, _⟩ := exec_codec hi s.params
  exact ⟨_, (hg s rfl).trans (State.onCodec_ok hopen rfl)⟩

theorem exec_codec_ne_fault {s : State} {i : Instr} {k : Nat} (hi : agentOf i = .codec k) (f : Fault) :
    exec i s ≠ .fault f := by
  intro h
  obtain ⟨g, hg, _⟩ := exec_codec hi s.params
  rw [hg s rfl] at h
  obtain ⟨_, _, hc⟩ := State.onCodec_fault h
  cases hc

/-- The one read that could leave a reassembly buffer stays in it while the entry fits (10_state.md R28). -/
theorem rxProcess_completes {s : State} {a : Byte} (hfits : (s.entry a).fillLen ≤ s.params.canBufCapacity)
    (d : List Byte) : ∃ t, rxProcess a d s = .next t := by
  rcases rxProcess_cases a d s with ⟨_, h⟩ | ⟨_, _, _, _, ⟨_, h⟩ | ⟨_, _, h⟩ | ⟨_, _, _, h⟩ | ⟨_, hlong, _⟩⟩
  · exact ⟨_, h⟩
  · exact ⟨_, h⟩
  · exact ⟨_, h⟩
  · exact ⟨_, h⟩
  · exact absurd hfits (Nat.not_le.mpr hlong)

theorem execRx_completes {s : State} {id : CanId}
    (hfits : (s.entry (idAddress id)).fillLen ≤ s.params.canBufCapacity) (d : List Byte) :
    ∃ t, execRx id d s = .next t := by
  unfold execRx
  split
  · exact ⟨_, rfl⟩
  · split
    · exact ⟨_, rxFill_eq _ d s⟩
    · split
      · exact rxProcess_completes hfits d
      · exact ⟨_, rfl⟩

/-- Every frame completes while the entries fit their buffers. -/
theorem exec_canRx_completes {s : State} {i : Instr} (hi : agentOf i = .canRx)
    (hfits : ∀ a, (s.entry a).fillLen ≤ s.params.canBufCapacity) : ∃ t, exec i s = .next t := by
  cases i with
  | rx id d => exact execRx_completes (hfits _) d
  | canShort hi a d => exact ⟨_, rfl⟩
  | canFill hi a d => exact ⟨_, rxFill_eq a d s⟩
  | canProcess hi a d => exact rxProcess_completes (hfits a) d
  | canOther id d => exact ⟨_, rfl⟩
  | _ => cases hi

/-- Settles O45, unit by unit: of the machine's invariant only the entries' fit is needed. -/
theorem everyOperationCompletes : Obligations.EveryOperationCompletes := by
  intro s i hinv hopen
  cases hi : agentOf i with
  | crcEngine => cases i <;> cases hi; exact ⟨_, rfl⟩
  | canTx => cases i <;> cases hi; exact ⟨_, rfl⟩
  | codec k =>
    obtain ⟨c, hc⟩ := hopen k hi
    exact exec_codec_completes hi hc
  | canRx => exact exec_canRx_completes hi (fun a => (hinv.entryInv a).fillRange)

/-- An operation of a codec faults in no state, and one of another unit completes. -/
theorem exec_ne_fault {s : State} (hinv : s.Inv) (i : Instr) (f : Fault) : exec i s ≠ .fault f := by
  by_cases hcodec : ∃ k, agentOf i = .codec k
  · obtain ⟨k, hi⟩ := hcodec
    exact exec_codec_ne_fault hi f
  · obtain ⟨t, ht⟩ := everyOperationCompletes s i hinv (fun k hi => absurd ⟨k, hi⟩ hcodec)
    rw [ht]
    nofun

theorem closeEndpoint_ne_fault (k : Nat) (s : State) (f : Fault) : closeEndpoint k s ≠ .fault f := by
  unfold closeEndpoint
  split <;> nofun

theorem openEndpoint_ne_fault (k : Nat) (s : State) (f : Fault) : openEndpoint k s ≠ .fault f := by
  unfold openEndpoint
  split <;> nofun

/-- Settles O44: the queue is no part of the invariant, and nothing an item stands for faults. -/
theorem stepNeverFaults : Obligations.StepNeverFaults := by
  intro s f hinv
  have hinput : ∀ rest, State.Inv { s with input := rest } := fun _ => hinv.of_units_eq rfl rfl rfl
  rcases step_cases s with ⟨_, h⟩ | ⟨_, _, i, _, _, _, h⟩ | ⟨_, _, _, _, _, h⟩ | ⟨k, _, _, h⟩ | ⟨k, _, _, h⟩ <;> rw [h]
  · nofun
  · exact exec_ne_fault (hinput _) i f
  · nofun
  · exact closeEndpoint_ne_fault k _ f
  · exact openEndpoint_ne_fault k _ f

/-! ## Operations of different units commute (R61) -/

/-- What one completed operation writes, by the unit it is an operation of (10_state.md R20). -/
inductive UnitWrite where
  /-- The CRC Engine returns a checksum. -/
  | crc (returned : U16)
  /-- Codec `k` becomes `c`. -/
  | codec (k : Nat) (c : Codec)
  /-- The fragmenter emits the frames `o` has sent, returns its status and leaves the bus where the last attempt did. -/
  | tx (o : Offered)
  /-- A frame of key `a` has effect `r`. -/
  | rx (a : Byte) (r : RxEffect)

def UnitWrite.agent (w : UnitWrite) : Agent :=
  match w with
  | .crc _ => .crcEngine
  | .codec k _ => .codec k
  | .tx _ => .canTx
  | .rx _ _ => .canRx

/-- The state with the write done. -/
def UnitWrite.apply (w : UnitWrite) (s : State) : State :=
  match w with
  | .crc v => { s with crcReturned := s.crcReturned ++ [v] }
  | .codec k c => s.setCodec k c
  | .tx o => { s with txFrame := s.txFrame ++ o.sent, sendReturned := s.sendReturned ++ [o.status], bus := o.bus }
  | .rx a r => r.apply a s

theorem exec_sendbuf_eq (a : Byte) (p : List Byte) (s : State) :
    exec (.sendbuf a p) s = .next ((UnitWrite.tx (sendBuffer s.params s.bus a p)).apply s) := rfl

/-- `s'` shows unit `g` the parameters and the state of its own that `s` shows it. -/
def SameUnit (g : Agent) (s s' : State) : Prop :=
  s'.params = s.params ∧
  match g with
  | .crcEngine => True
  | .codec k => s'.codecs[k]? = s.codecs[k]?
  | .canTx => s'.bus = s.bus
  | .canRx => s'.canRx = s.canRx

/-- An operation that completes makes the same write of its unit from every state that shows the unit the same. -/
theorem exec_eq_unitWrite {s t : State} {i : Instr} (h : exec i s = .next t) :
    ∃ w : UnitWrite, w.agent = agentOf i ∧
      ∀ s', SameUnit (agentOf i) s s' → exec i s' = .next (w.apply s') := by
  cases hi : agentOf i with
  | crcEngine =>
    cases i <;> cases hi
    exact ⟨.crc _, rfl, fun _ _ => rfl⟩
  | canTx =>
    cases i <;> cases hi
    rename_i a p
    refine ⟨.tx (sendBuffer s.params s.bus a p), rfl, ?_⟩
    rintro s' ⟨hparams, hbus : s'.bus = s.bus⟩
    rw [exec_sendbuf_eq, hparams, hbus]
  | codec k =>
    obtain ⟨g, hg, _⟩ := exec_codec hi s.params
    rw [hg s rfl] at h
    obtain ⟨c, _, ⟨hc, hopen⟩, _, _⟩ := State.onCodec_next h
    refine ⟨.codec k (g c), rfl, ?_⟩
    rintro s' ⟨hparams, hcodec⟩
    exact (hg s' hparams).trans (State.onCodec_ok ⟨hcodec.trans hc, hopen⟩ rfl)
  | canRx =>
    rcases exec_canRx hi s.params (s.entry (keyOf i)) with ⟨f, hf⟩ | ⟨r, _, hr⟩
    · rw [hf s rfl rfl] at h
      cases h
    · refine ⟨.rx (keyOf i) r, rfl, ?_⟩
      rintro s' ⟨hparams, hentries⟩
      exact hr s' hparams (by simp only [State.entry, hentries])

theorem SameUnit.refl (g : Agent) (s : State) : SameUnit g s s := by
  cases g <;> exact ⟨rfl, by trivial⟩

/-- A write shows every other unit what it was shown before. -/
theorem sameUnit_apply {w : UnitWrite} {g : Agent} (hne : w.agent ≠ g) (s : State) : SameUnit g s (w.apply s) := by
  refine ⟨by cases w <;> rfl, ?_⟩
  cases g with
  | crcEngine => trivial
  | codec j =>
    cases w with
    | codec k c => exact State.getElem_setCodec_ne s c (fun hkj => hne (congrArg Agent.codec hkj))
    | _ => rfl
  | canTx =>
    cases w with
    | tx => exact absurd rfl hne
    | _ => rfl
  | canRx =>
    cases w with
    | rx => exact absurd rfl hne
    | _ => rfl

/-- Writes of different units touch different fields, or different codec instances. -/
theorem UnitWrite.apply_comm {v w : UnitWrite} (hne : v.agent ≠ w.agent) (s : State) :
    v.apply (w.apply s) = w.apply (v.apply s) := by
  cases v <;> cases w
  case codec.codec k c j d =>
    have hkj : k ≠ j := fun h => hne (congrArg Agent.codec h)
    simp only [UnitWrite.apply, State.setCodec, List.set_comm d c hkj.symm]
  case crc.crc | tx.tx | rx.rx => exact absurd rfl hne
  all_goals rfl

/-- Settles O49: neither operation changes what the other reads, and their writes commute. -/
theorem operationsOfDifferentUnitsCommute : Obligations.OperationsOfDifferentUnitsCommute := by
  intro s t u i j hne hi hj
  obtain ⟨v, hv, hiv⟩ := exec_eq_unitWrite hi
  obtain ⟨w, hw, hjw⟩ := exec_eq_unitWrite hj
  obtain rfl : v.apply s = t := Host.Outcome.next.inj ((hiv s (.refl _ s)).symm.trans hi)
  obtain rfl : w.apply s = u := Host.Outcome.next.inj ((hjw s (.refl _ s)).symm.trans hj)
  have hvw : v.agent ≠ w.agent := by rwa [hv, hw]
  refine ⟨w.apply (v.apply s), hjw _ (sameUnit_apply (hw ▸ hvw) s), ?_⟩
  rw [hiv _ (sameUnit_apply (hv ▸ hvw.symm) s), UnitWrite.apply_comm hvw]

end Sys2Proof.Machine
end

section
/-! The encoding family (30_encoding.md), commands (R70 to R72). Each reader of the decoder is the inverse of the writer
it belongs to, said once per reader as an equivalence; so a byte sequence decodes to a command exactly where it begins
with the encoding of a well-formed one, and is refused exactly where R72 says so. -/

namespace Sys2Proof.Machine

/-! ## Bit fields as numbers -/

theorem toNat_append_eq {m n : Nat} (x : BitVec m) (y : BitVec n) : (x ++ y).toNat = 2 ^ n * x.toNat + y.toNat := by
  rw [BitVec.toNat_append, ← Nat.shiftLeft_add_eq_or_of_lt y.isLt, Nat.shiftLeft_eq, Nat.mul_comm]

theorem toNat_extractLsb'_eq {n : Nat} (start len : Nat) (x : BitVec n) :
    (x.extractLsb' start len).toNat = x.toNat / 2 ^ start % 2 ^ len := by
  rw [BitVec.extractLsb'_toNat, Nat.shiftRight_eq_div_pow]

/-! ## Words and byte operands (R71) -/

theorem wordOfBytes_toNat (b3 b2 b1 b0 : Byte) :
    (wordOfBytes b3 b2 b1 b0).toNat = 16777216 * b3.toNat + 65536 * b2.toNat + 256 * b1.toNat + b0.toNat := by
  simp only [wordOfBytes, toNat_append_eq]
  omega

theorem be32_wordOfBytes (b3 b2 b1 b0 : Byte) : be32 (wordOfBytes b3 b2 b1 b0) = [b3, b2, b1, b0] := by
  have h3 := b3.isLt; have h2 := b2.isLt; have h1 := b1.isLt; have h0 := b0.isLt
  simp only [be32, List.cons.injEq, ← BitVec.toNat_inj, toNat_extractLsb'_eq, wordOfBytes_toNat, and_true]
  omega

theorem wordOfBytes_be32 (w : Word) :
    wordOfBytes (w.extractLsb' 24 8) (w.extractLsb' 16 8) (w.extractLsb' 8 8) (w.extractLsb' 0 8) = w := by
  have hw := w.isLt
  simp only [← BitVec.toNat_inj, wordOfBytes_toNat, toNat_extractLsb'_eq]
  omega

/-- A word is read where its four bytes stand. -/
theorem takeWord_eq_some_iff {bs rest : List Byte} {w : Word} : takeWord bs = some (w, rest) ↔ bs = be32 w ++ rest := by
  constructor
  · intro h
    unfold takeWord at h
    split at h
    · injection h with h
      injection h with hw hrest
      rw [← hw, ← hrest, be32_wordOfBytes]
      rfl
    · cases h
  · rintro rfl
    simp [takeWord, be32, wordOfBytes_be32]

theorem takeBytes_eq_some_iff {n : Nat} {bs d rest : List Byte} :
    takeBytes n bs = some (d, rest) ↔ d.length = n ∧ bs = d ++ rest := by
  unfold takeBytes
  constructor
  · intro h
    split at h
    · cases h
      exact ⟨by simpa using ‹_›, (List.take_append_drop n bs).symm⟩
    · cases h
  · rintro ⟨rfl, rfl⟩
    simp

/-- `Lw` and its bytes are read where they stand, if `Lw` can hold their number. -/
theorem takeSized_eq_some_iff {bs s rest : List Byte} :
    takeSized bs = some (s, rest) ↔ WellFormed.operandBytes s ∧ bs = encodeSized s ++ rest := by
  unfold takeSized
  constructor
  · intro h
    split at h
    · cases h
    · rename_i lw rest' hword
      obtain ⟨hlen, rfl⟩ := takeBytes_eq_some_iff.mp h
      refine ⟨hlen.trans_lt lw.isLt, ?_⟩
      rw [takeWord_eq_some_iff.mp hword, encodeSized, hlen, BitVec.ofNat_toNat, BitVec.setWidth_eq, List.append_assoc]
  · rintro ⟨hlen, rfl⟩
    rw [encodeSized, List.append_assoc, takeWord_eq_some_iff.mpr rfl]
    exact takeBytes_eq_some_iff.mpr ⟨(Nat.mod_eq_of_lt hlen).symm, rfl⟩

theorem decodeSized_eq_ok_iff {make : List Byte → Instr} {bs rest : List Byte} {i : Instr} :
    decodeSized make bs = .ok (i, rest) ↔ ∃ s, WellFormed.operandBytes s ∧ bs = encodeSized s ++ rest ∧ i = make s := by
  unfold decodeSized
  constructor
  · intro h
    split at h
    · cases h
    · rename_i s _ hsized
      cases h
      obtain ⟨hlen, hbs⟩ := takeSized_eq_some_iff.mp hsized
      exact ⟨s, hlen, hbs, rfl⟩
  · rintro ⟨s, hlen, hbs, rfl⟩
    rw [takeSized_eq_some_iff.mpr ⟨hlen, hbs⟩]

theorem reservedIdBits_eq_zero_iff {w : Word} : w.extractLsb' 29 3 = 0 ↔ w.toNat / 536870912 = 0 := by
  have hw := w.isLt
  rw [← BitVec.toNat_inj, toNat_extractLsb'_eq, Nat.mod_eq_of_lt (by omega)]
  rfl

/-- A word whose bits 31 to 29 are 0 is an identifier with zeros before it. -/
theorem exists_identifier_iff {w : Word} : w.extractLsb' 29 3 = 0 ↔ ∃ id : CanId, w = id.setWidth 32 := by
  rw [reservedIdBits_eq_zero_iff]
  constructor
  · intro h
    refine ⟨w.extractLsb' 0 29, ?_⟩
    rw [← BitVec.toNat_inj, BitVec.toNat_setWidth_of_le (by decide), toNat_extractLsb'_eq]
    omega
  · rintro ⟨id, rfl⟩
    have hid := id.isLt
    rw [BitVec.toNat_setWidth_of_le (by decide)]
    omega

theorem identifier_of_word (id : CanId) : (id.setWidth 32).extractLsb' 0 29 = id := by
  have hid := id.isLt
  simp only [← BitVec.toNat_inj, toNat_extractLsb'_eq, BitVec.toNat_setWidth]
  omega

theorem decodeRx_eq_ok_iff {n : Nat} {bs rest : List Byte} {i : Instr} :
    decodeRx n bs = .ok (i, rest) ↔
      ∃ (id : CanId) (d : List Byte), d.length = n ∧ bs = be32 (id.setWidth 32) ++ (d ++ rest) ∧ i = .rx id d := by
  unfold decodeRx
  constructor
  · intro h
    split at h
    · cases h
    · rename_i w rest' hword
      split at h
      · cases h
      · rename_i hreserved
        obtain ⟨id, rfl⟩ := exists_identifier_iff.mp (not_not.mp hreserved)
        split at h
        · cases h
        · rename_i d _ hd
          cases h
          obtain ⟨hlen, rfl⟩ := takeBytes_eq_some_iff.mp hd
          exact ⟨id, d, hlen, takeWord_eq_some_iff.mp hword, by rw [identifier_of_word]⟩
  · rintro ⟨id, d, hlen, hbs, rfl⟩
    have hreserved := exists_identifier_iff.mpr ⟨id, rfl⟩
    rw [takeWord_eq_some_iff.mpr hbs]
    simp only [hreserved, takeBytes_eq_some_iff.mpr ⟨hlen, rfl⟩, identifier_of_word]
    rfl

/-! ## The header word (R70, R72) -/

theorem headerWord_toNat (op : BitVec 3) (inst arg : Byte) :
    (headerWord op inst arg).toNat = 65536 * arg.toNat + 256 * inst.toNat + op.toNat := by
  simp only [headerWord, toNat_append_eq, BitVec.ofNat_eq_ofNat, BitVec.toNat_ofNat, Nat.zero_mod]
  omega

/-! The fields of a header word, as the numbers of R70. -/

theorem headerWord_op (op : BitVec 3) (inst arg : Byte) : (headerWord op inst arg).toNat % 8 = op.toNat := by
  rw [headerWord_toNat]; omega

theorem headerWord_low (op : BitVec 3) (inst arg : Byte) : (headerWord op inst arg).toNat / 8 % 32 = 0 := by
  rw [headerWord_toNat]; omega

theorem headerWord_inst (op : BitVec 3) (inst arg : Byte) :
    (headerWord op inst arg).toNat / 256 % 256 = inst.toNat := by
  rw [headerWord_toNat]; omega

theorem headerWord_arg (op : BitVec 3) (inst arg : Byte) :
    (headerWord op inst arg).toNat / 65536 % 256 = arg.toNat := by
  rw [headerWord_toNat]; omega

theorem headerWord_high (op : BitVec 3) (inst arg : Byte) : (headerWord op inst arg).toNat / 16777216 = 0 := by
  rw [headerWord_toNat]; omega

theorem headerOp_toNat (h : Word) : headerOp h = h.toNat % 8 := (toNat_extractLsb'_eq 0 3 h).trans (by omega)

theorem headerInst_toNat (h : Word) : headerInst h = h.toNat / 256 % 256 := toNat_extractLsb'_eq 8 8 h

theorem headerArg_toNat (h : Word) : (headerArg h).toNat = h.toNat / 65536 % 256 := toNat_extractLsb'_eq 16 8 h

@[simp] theorem headerOp_headerWord (op : BitVec 3) (inst arg : Byte) : headerOp (headerWord op inst arg) = op.toNat :=
  (headerOp_toNat _).trans (headerWord_op op inst arg)

@[simp] theorem headerInst_headerWord (op : BitVec 3) (inst arg : Byte) :
    headerInst (headerWord op inst arg) = inst.toNat := (headerInst_toNat _).trans (headerWord_inst op inst arg)

@[simp] theorem headerArg_headerWord (op : BitVec 3) (inst arg : Byte) : headerArg (headerWord op inst arg) = arg :=
  BitVec.eq_of_toNat_eq ((headerArg_toNat _).trans (headerWord_arg op inst arg))

/-- The conditions of R72 on the number `h` of the header word alone, as `Spec.IllFormed` writes them. -/
def HeaderRefused (p : Params) (h : Nat) : Prop :=
  h % 8 = 6 ∨ h % 8 = 7 ∨ h / 8 % 32 ≠ 0 ∨ h / 16777216 ≠ 0 ∨
  ((h % 8 = 1 ∨ h % 8 = 2 ∨ h % 8 = 3) ∧ p.nCodec ≤ h / 256 % 256) ∨
  ((h % 8 = 0 ∨ h % 8 = 4 ∨ h % 8 = 5) ∧ h / 256 % 256 ≠ 0) ∨
  ((h % 8 = 0 ∨ h % 8 = 1 ∨ h % 8 = 3) ∧ h / 65536 % 256 ≠ 0) ∨
  (h % 8 = 5 ∧ 8 < h / 65536 % 256)

/-- The header words of the six operations of R70, with the operands they carry. -/
inductive CommandHeader (p : Params) : Word → Prop where
  | crc16 : CommandHeader p (headerWord 0 0 0)
  | reset (inst : Byte) (hinst : inst.toNat < p.nCodec) : CommandHeader p (headerWord 1 inst 0)
  | byte (inst b : Byte) (hinst : inst.toNat < p.nCodec) : CommandHeader p (headerWord 2 inst b)
  | send (inst : Byte) (hinst : inst.toNat < p.nCodec) : CommandHeader p (headerWord 3 inst 0)
  | sendbuf (a : Byte) : CommandHeader p (headerWord 4 0 a)
  | rx (dlc : Byte) (hdlc : dlc.toNat ≤ 8) : CommandHeader p (headerWord 5 0 dlc)

theorem headerLow_ne_zero_iff {h : Word} : headerLow h ≠ 0 ↔ h.toNat / 8 % 32 ≠ 0 := by
  rw [ne_eq, ← BitVec.toNat_inj, headerLow, toNat_extractLsb'_eq]
  rfl

theorem headerArg_ne_zero_iff {h : Word} : headerArg h ≠ 0 ↔ h.toNat / 65536 % 256 ≠ 0 := by
  rw [← headerArg_toNat, ne_eq, ← BitVec.toNat_inj]
  rfl

theorem headerHigh_ne_zero_iff {h : Word} : headerHigh h ≠ 0 ↔ h.toNat / 16777216 ≠ 0 := by
  have hw := h.isLt
  rw [ne_eq, ← BitVec.toNat_inj, headerHigh, toNat_extractLsb'_eq, Nat.mod_eq_of_lt (by omega)]
  rfl

/-- The decoder's tests of the header word are the conditions of R72. -/
theorem headerError_eq_none_iff {p : Params} {h : Word} : headerError p h = none ↔ ¬ HeaderRefused p h.toNat := by
  simp only [headerError, usesInstance, leavesArg, HeaderRefused, headerLow_ne_zero_iff, headerHigh_ne_zero_iff,
    headerArg_ne_zero_iff, headerArg_toNat, headerOp_toNat, headerInst_toNat, Bool.or_eq_true, beq_iff_eq]
  have hop8 : h.toNat % 8 < 8 := Nat.mod_lt _ (by decide)
  generalize h.toNat % 8 = op, h.toNat / 8 % 32 = low, h.toNat / 256 % 256 = inst, h.toNat / 65536 % 256 = arg,
    h.toNat / 16777216 = high at hop8 ⊢
  split_ifs <;> simp only [false_iff, true_iff, not_not] <;> omega

/-- On a word with the reserved bits 0, R72 asks for an operation of the table and for its unused fields to be 0. -/
theorem headerRefused_headerWord_iff {p : Params} {op : BitVec 3} {inst arg : Byte} :
    HeaderRefused p (headerWord op inst arg).toNat ↔
      6 ≤ op.toNat ∨ ((op = 1 ∨ op = 2 ∨ op = 3) ∧ p.nCodec ≤ inst.toNat) ∨ ((op = 0 ∨ op = 4 ∨ op = 5) ∧ inst ≠ 0) ∨
      ((op = 0 ∨ op = 1 ∨ op = 3) ∧ arg ≠ 0) ∨ (op = 5 ∧ 8 < arg.toNat) := by
  simp only [HeaderRefused, headerWord_op, headerWord_low, headerWord_inst, headerWord_arg, headerWord_high, ne_eq,
    ← BitVec.toNat_inj, BitVec.ofNat_eq_ofNat, BitVec.toNat_ofNat, not_true_eq_false, false_or]
  omega

/-- A word with the reserved bits 0 is put together from its three fields. -/
theorem exists_eq_headerWord {p : Params} {h : Word} (hh : ¬ HeaderRefused p h.toNat) :
    ∃ op inst arg, h = headerWord op inst arg := by
  have hw := h.isLt
  refine ⟨h.extractLsb' 0 3, h.extractLsb' 8 8, headerArg h, ?_⟩
  rw [← BitVec.toNat_inj, headerWord_toNat, headerArg_toNat, toNat_extractLsb'_eq, toNat_extractLsb'_eq]
  unfold HeaderRefused at hh
  omega

/-- R72 refuses every header word but those of the six operations. -/
theorem commandHeader_iff {p : Params} {h : Word} : CommandHeader p h ↔ ¬ HeaderRefused p h.toNat := by
  constructor
  · intro hh
    cases hh <;> simp [headerRefused_headerWord_iff, *]
  · intro hh
    obtain ⟨op, inst, arg, rfl⟩ := exists_eq_headerWord hh
    rw [headerRefused_headerWord_iff] at hh
    have hop : op = 0 ∨ op = 1 ∨ op = 2 ∨ op = 3 ∨ op = 4 ∨ op = 5 ∨ 6 ≤ op.toNat := by
      clear hh
      decide +revert
    rcases hop with rfl | rfl | rfl | rfl | rfl | rfl | hop
    · obtain ⟨rfl, rfl⟩ : inst = 0 ∧ arg = 0 := by simpa using hh
      exact .crc16
    · obtain ⟨hinst, rfl⟩ : inst.toNat < p.nCodec ∧ arg = 0 := by simpa using hh
      exact .reset inst hinst
    · exact .byte inst arg (by simpa using hh)
    · obtain ⟨hinst, rfl⟩ : inst.toNat < p.nCodec ∧ arg = 0 := by simpa using hh
      exact .send inst hinst
    · obtain rfl : inst = 0 := by simpa using hh
      exact .sendbuf arg
    · obtain ⟨rfl, hdlc⟩ : inst = 0 ∧ arg.toNat ≤ 8 := by simpa using hh
      exact .rx arg hdlc
    · exact absurd (.inl hop) hh

theorem headerError_of_commandHeader {p : Params} {h : Word} (hh : CommandHeader p h) : headerError p h = none :=
  headerError_eq_none_iff.mpr (commandHeader_iff.mp hh)

/-! ## Commands (R70, R71) -/

theorem decodeCommand_eq_ok_iff_header {p : Params} {bs rest : List Byte} {i : Instr} :
    decodeCommand p bs = .ok (i, rest) ↔
      ∃ h operands, CommandHeader p h ∧ bs = be32 h ++ operands ∧ decodeOperands h operands = .ok (i, rest) := by
  unfold decodeCommand
  constructor
  · intro hi
    split at hi
    · cases hi
    · rename_i h operands hword
      split at hi
      · cases hi
      · rename_i hheader
        exact ⟨h, operands, commandHeader_iff.mpr (headerError_eq_none_iff.mp hheader), takeWord_eq_some_iff.mp hword, hi⟩
  · rintro ⟨h, operands, hheader, hbs, hi⟩
    simpa [takeWord_eq_some_iff.mpr hbs, headerError_of_commandHeader hheader] using hi

/-! The operands that `H[2:0]` selects (R92), operation by operation. -/

theorem decodeOperands_crc16 (inst arg : Byte) (bs : List Byte) :
    decodeOperands (headerWord 0 inst arg) bs = decodeSized .crc16 bs := by simp [decodeOperands]

theorem decodeOperands_reset (inst arg : Byte) (bs : List Byte) :
    decodeOperands (headerWord 1 inst arg) bs = .ok (.reset inst.toNat, bs) := by simp [decodeOperands]

theorem decodeOperands_byte (inst arg : Byte) (bs : List Byte) :
    decodeOperands (headerWord 2 inst arg) bs = .ok (.byte inst.toNat arg, bs) := by simp [decodeOperands]

theorem decodeOperands_send (inst arg : Byte) (bs : List Byte) :
    decodeOperands (headerWord 3 inst arg) bs = decodeSized (.send inst.toNat) bs := by simp [decodeOperands]

theorem decodeOperands_sendbuf (inst arg : Byte) (bs : List Byte) :
    decodeOperands (headerWord 4 inst arg) bs = decodeSized (.sendbuf arg) bs := by simp [decodeOperands]

theorem decodeOperands_rx (inst arg : Byte) (bs : List Byte) :
    decodeOperands (headerWord 5 inst arg) bs = decodeRx arg.toNat bs := by simp [decodeOperands]

/-- What decodes to a command is the encoding of a well-formed one and the bytes after it (R70 to R73). -/
theorem encode_of_decodeCommand {p : Params} {bs rest : List Byte} {i : Instr}
    (hdecode : decodeCommand p bs = .ok (i, rest)) :
    WellFormed p i ∧ ∃ front, encode p i = .command front ∧ bs = front ++ rest := by
  obtain ⟨h, operands, hheader, rfl, hi⟩ := decodeCommand_eq_ok_iff_header.mp hdecode
  cases hheader with
  | crc16 =>
    rw [decodeOperands_crc16] at hi
    obtain ⟨s, hlen, rfl, rfl⟩ := decodeSized_eq_ok_iff.mp hi
    exact ⟨hlen, _, rfl, by simp⟩
  | reset inst hinst =>
    rw [decodeOperands_reset] at hi
    cases hi
    exact ⟨⟨hinst, inst.isLt⟩, _, rfl, by simp⟩
  | byte inst b hinst =>
    rw [decodeOperands_byte] at hi
    cases hi
    exact ⟨⟨hinst, inst.isLt⟩, _, rfl, by simp⟩
  | send inst hinst =>
    rw [decodeOperands_send] at hi
    obtain ⟨s, hlen, rfl, rfl⟩ := decodeSized_eq_ok_iff.mp hi
    exact ⟨⟨⟨hinst, inst.isLt⟩, hlen⟩, _, rfl, by simp⟩
  | sendbuf a =>
    rw [decodeOperands_sendbuf] at hi
    obtain ⟨s, hlen, rfl, rfl⟩ := decodeSized_eq_ok_iff.mp hi
    exact ⟨hlen, _, rfl, by simp⟩
  | rx dlc hdlc =>
    rw [decodeOperands_rx] at hi
    obtain ⟨id, d, hlen, rfl, rfl⟩ := decodeRx_eq_ok_iff.mp hi
    exact ⟨hlen.trans_le hdlc, _, rfl, by simp [hlen]⟩

/-- The instance index of a well-formed command survives the 8 bits of `inst` (R70). -/
theorem instIndex_toNat {p : Params} {k : Nat} (hk : WellFormed.instIndex p k) : (BitVec.ofNat 8 k).toNat = k :=
  Nat.mod_eq_of_lt hk.2

/-- The encoding of a well-formed command decodes to it, whatever bytes come next (R70, R71). -/
theorem decodeCommand_of_encode {p : Params} {i : Instr} {front : List Byte} (hwf : WellFormed p i)
    (hfront : encode p i = .command front) (rest : List Byte) : decodeCommand p (front ++ rest) = .ok (i, rest) := by
  rw [decodeCommand_eq_ok_iff_header]
  cases i with
  | crc16 s =>
    cases hfront
    exact ⟨_, _, .crc16, List.append_assoc _ _ _,
      (decodeOperands_crc16 _ _ _).trans <| decodeSized_eq_ok_iff.mpr ⟨s, hwf, rfl, rfl⟩⟩
  | reset k =>
    cases hfront
    have hk := instIndex_toNat hwf
    exact ⟨_, _, .reset _ (hk.trans_lt hwf.1), rfl, by rw [decodeOperands_reset, hk]⟩
  | byte k b =>
    cases hfront
    have hk := instIndex_toNat hwf
    exact ⟨_, _, .byte _ b (hk.trans_lt hwf.1), rfl, by rw [decodeOperands_byte, hk]⟩
  | send k s =>
    cases hfront
    obtain ⟨hindex, hlen⟩ := hwf
    have hk := instIndex_toNat hindex
    exact ⟨_, _, .send _ (hk.trans_lt hindex.1), List.append_assoc _ _ _,
      (decodeOperands_send _ _ _).trans <| decodeSized_eq_ok_iff.mpr ⟨s, hlen, rfl, by rw [hk]⟩⟩
  | sendbuf a s =>
    cases hfront
    exact ⟨_, _, .sendbuf a, List.append_assoc _ _ _,
      (decodeOperands_sendbuf _ _ _).trans <| decodeSized_eq_ok_iff.mpr ⟨s, hwf, rfl, rfl⟩⟩
  | rx id d =>
    cases hfront
    have hdlc : (BitVec.ofNat 8 d.length).toNat = d.length := Nat.mod_eq_of_lt (by have := hwf; omega)
    exact ⟨_, _, .rx _ (hdlc.trans_le hwf), List.append_assoc _ _ _,
      (decodeOperands_rx _ _ _).trans <| decodeRx_eq_ok_iff.mpr ⟨id, d, hdlc.symm, List.append_assoc _ _ _, rfl⟩⟩
  | _ => cases hfront

/-- Settles O2. -/
theorem encodeOfDecodeIsIdentity : Obligations.EncodeOfDecodeIsIdentity := fun _ _ _ _ => encode_of_decodeCommand

/-! ## What R72 refuses -/

theorem number_be32 (w : Word) : Spec.number (be32 w) = w.toNat := by
  have hw := w.isLt
  simp only [Spec.number, be32, List.foldl_cons, List.foldl_nil, toNat_extractLsb'_eq]
  omega

theorem number_take_be32 (w : Word) (rest : List Byte) : Spec.number ((be32 w ++ rest).take 4) = w.toNat := number_be32 w

theorem length_be32_append (w : Word) (rest : List Byte) : (be32 w ++ rest).length = 4 + rest.length :=
  List.length_append

/-- Four bytes and more begin with a word. -/
theorem exists_be32_append {bs : List Byte} (hbs : 4 ≤ bs.length) : ∃ w rest, bs = be32 w ++ rest := by
  match bs with
  | b3 :: b2 :: b1 :: b0 :: rest => exact ⟨wordOfBytes b3 b2 b1 b0, rest, by rw [be32_wordOfBytes]; rfl⟩
  | [] | [_] | [_, _] | [_, _, _] => simp at hbs

theorem takeWord_short {bs : List Byte} (hbs : bs.length < 4) : takeWord bs = none := by
  rw [Option.eq_none_iff_forall_ne_some]
  rintro ⟨w, rest⟩ hword
  rw [takeWord_eq_some_iff.mp hword, length_be32_append] at hbs
  omega

/-- A byte operand is refused where `Lw` or some of its bytes are missing. -/
theorem decodeSized_error_iff {make : List Byte → Instr} {bs : List Byte} :
    (∃ e, decodeSized make bs = .error e) ↔ bs.length < 4 + Spec.number (bs.take 4) := by
  by_cases hbs : bs.length < 4
  · refine iff_of_true ⟨.truncated, ?_⟩ (by omega)
    simp only [decodeSized, takeSized, takeWord_short hbs]
  · obtain ⟨lw, rest, rfl⟩ := exists_be32_append (Nat.not_lt.mp hbs)
    rw [number_take_be32, length_be32_append]
    simp only [decodeSized, takeSized, takeWord_eq_some_iff.mpr rfl, takeBytes]
    by_cases hlen : lw.toNat ≤ rest.length
    · rw [if_pos hlen]
      exact iff_of_false nofun (by omega)
    · rw [if_neg hlen]
      exact iff_of_true ⟨_, rfl⟩ (by omega)

/-- The operands of CAN_RX_FRAME are refused for the reserved bits of `I`, or where some of their bytes are missing. -/
theorem decodeRx_error_iff {n : Nat} {bs : List Byte} :
    (∃ e, decodeRx n bs = .error e) ↔
      (4 ≤ bs.length ∧ Spec.number (bs.take 4) / 536870912 ≠ 0) ∨ bs.length < 4 + n := by
  by_cases hbs : bs.length < 4
  · refine iff_of_true ⟨.truncated, ?_⟩ (by omega)
    simp only [decodeRx, takeWord_short hbs]
  · obtain ⟨w, rest, rfl⟩ := exists_be32_append (Nat.not_lt.mp hbs)
    rw [number_take_be32, length_be32_append]
    simp only [decodeRx, takeWord_eq_some_iff.mpr rfl, takeBytes, ne_eq, reservedIdBits_eq_zero_iff]
    by_cases hreserved : w.toNat / 536870912 = 0
    · rw [if_neg (not_not.mpr hreserved)]
      by_cases hlen : n ≤ rest.length
      · rw [if_pos hlen]
        exact iff_of_false nofun (by omega)
      · rw [if_neg hlen]
        exact iff_of_true ⟨_, rfl⟩ (by omega)
    · rw [if_pos hreserved]
      exact iff_of_true ⟨_, rfl⟩ (by omega)

/-- The conditions of R72 on the operands of a command with header number `h`, as `Spec.IllFormed` writes them. -/
def OperandsRefused (h : Nat) (operands : List Byte) : Prop :=
  (h % 8 = 5 ∧ 4 ≤ operands.length ∧ Spec.number (operands.take 4) / 536870912 ≠ 0) ∨
  4 + operands.length <
    if h % 8 = 1 ∨ h % 8 = 2 then 4
    else if h % 8 = 5 then 8 + h / 65536 % 256
    else 8 + Spec.number (operands.take 4)

/-- What R72 says of a command whose header word `h` is there: a condition on that word, or one on the operands. -/
theorem illFormed_iff {p : Params} {h : Word} {operands : List Byte} :
    Spec.IllFormed p (be32 h ++ operands) ↔ HeaderRefused p h.toNat ∨ OperandsRefused h.toNat operands := by
  have hdrop : (be32 h ++ operands).drop 4 = operands := rfl
  have height : 8 ≤ 4 + operands.length ↔ 4 ≤ operands.length := by omega
  have hfour : ¬ 4 + operands.length < 4 := by omega
  simp only [Spec.IllFormed, HeaderRefused, OperandsRefused, Spec.commandLength, number_take_be32, hdrop,
    length_be32_append, height, hfour, false_or, or_assoc]

theorem operandsRefused_none {h : Nat} (hop : h % 8 = 1 ∨ h % 8 = 2) (operands : List Byte) :
    ¬ OperandsRefused h operands := by
  rw [OperandsRefused, if_pos hop]
  omega

theorem operandsRefused_sized {h : Nat} (hop : h % 8 = 0 ∨ h % 8 = 3 ∨ h % 8 = 4) (operands : List Byte) :
    OperandsRefused h operands ↔ operands.length < 4 + Spec.number (operands.take 4) := by
  rw [OperandsRefused, if_neg (by omega), if_neg (by omega)]
  omega

theorem operandsRefused_rx {h : Nat} (hop : h % 8 = 5) (operands : List Byte) :
    OperandsRefused h operands ↔
      (4 ≤ operands.length ∧ Spec.number (operands.take 4) / 536870912 ≠ 0) ∨
      operands.length < 4 + h / 65536 % 256 := by
  rw [OperandsRefused, if_neg (by omega), if_pos hop]
  omega

/-- With a header word of R70, a command is refused for its operands alone. -/
theorem decodeOperands_error_iff {p : Params} {h : Word} {operands : List Byte} (hh : CommandHeader p h) :
    (∃ e, decodeOperands h operands = .error e) ↔ OperandsRefused h.toNat operands := by
  cases hh with
  | crc16 => rw [decodeOperands_crc16, decodeSized_error_iff, operandsRefused_sized (.inl (headerWord_op _ _ _))]
  | reset inst =>
    rw [decodeOperands_reset]
    exact iff_of_false nofun (operandsRefused_none (.inl (headerWord_op _ _ _)) operands)
  | byte inst b =>
    rw [decodeOperands_byte]
    exact iff_of_false nofun (operandsRefused_none (.inr (headerWord_op _ _ _)) operands)
  | send inst =>
    rw [decodeOperands_send, decodeSized_error_iff, operandsRefused_sized (.inr (.inl (headerWord_op _ _ _)))]
  | sendbuf a =>
    rw [decodeOperands_sendbuf, decodeSized_error_iff, operandsRefused_sized (.inr (.inr (headerWord_op _ _ _)))]
  | rx dlc => rw [decodeOperands_rx, decodeRx_error_iff, operandsRefused_rx (headerWord_op _ _ _), headerWord_arg]

/-- The decoder refuses a byte sequence exactly under the conditions of R72, or where no header word is there (log 7). -/
theorem decodeCommand_error_iff {p : Params} {bs : List Byte} :
    (∃ e, decodeCommand p bs = .error e) ↔ Spec.IllFormed p bs := by
  by_cases hbs : bs.length < 4
  · refine iff_of_true ⟨.truncated, ?_⟩ (.inl hbs)
    simp only [decodeCommand, takeWord_short hbs]
  · obtain ⟨h, operands, rfl⟩ := exists_be32_append (Nat.not_lt.mp hbs)
    rw [illFormed_iff]
    simp only [decodeCommand, takeWord_eq_some_iff.mpr rfl]
    cases hheader : headerError p h with
    | some e =>
      have hrefused : HeaderRefused p h.toNat := by
        by_contra hok
        rw [headerError_eq_none_iff.mpr hok] at hheader
        cases hheader
      exact iff_of_true ⟨e, rfl⟩ (.inl hrefused)
    | none =>
      have hok := headerError_eq_none_iff.mp hheader
      exact (decodeOperands_error_iff (commandHeader_iff.mpr hok)).trans (or_iff_right hok).symm

end Sys2Proof.Machine
end

section
/-! The encoding family (30_encoding.md), frames and wire bytes (R76, R84 to R86, R92): what each class and each marker
decodes to and does. With the commands, that gives the round trip of every instruction, and what a step refuses. -/

namespace Sys2Proof.Machine

/-! ## The fields of an identifier (R84) -/

theorem canId_toNat (hi : BitVec 13) (type a : Byte) :
    (canId hi type a).toNat = 65536 * hi.toNat + 256 * type.toNat + a.toNat := by
  simp only [canId, toNat_append_eq]
  omega

theorem typeOf_eq (id : CanId) : Spec.typeOf id = (idType id).toNat := (toNat_extractLsb'_eq 8 8 id).symm

theorem addressOf_eq (id : CanId) : Spec.addressOf id = (idAddress id).toNat := by
  rw [idAddress, toNat_extractLsb'_eq, Spec.addressOf]
  omega

theorem idHigh_toNat (id : CanId) : (idHigh id).toNat = id.toNat / 65536 := by
  have hid := id.isLt
  rw [idHigh, toNat_extractLsb'_eq]
  omega

@[simp] theorem idType_canId (hi : BitVec 13) (type a : Byte) : idType (canId hi type a) = type := by
  rw [← BitVec.toNat_inj, ← typeOf_eq, Spec.typeOf, canId_toNat]
  omega

@[simp] theorem idAddress_canId (hi : BitVec 13) (type a : Byte) : idAddress (canId hi type a) = a := by
  rw [← BitVec.toNat_inj, ← addressOf_eq, Spec.addressOf, canId_toNat]
  omega

@[simp] theorem idHigh_canId (hi : BitVec 13) (type a : Byte) : idHigh (canId hi type a) = hi := by
  rw [← BitVec.toNat_inj, idHigh_toNat, canId_toNat]
  omega

theorem typeOf_eq_iff {id : CanId} {type : Byte} : Spec.typeOf id = type.toNat ↔ idType id = type := by
  rw [typeOf_eq, BitVec.toNat_inj]

/-! ## The class of a frame (R86) -/

theorem classifyFrame_short {p : Params} {id : CanId} (h : idType id = p.typeShort) (d : List Byte) :
    classifyFrame p id d = .canShort (idHigh id) (idAddress id) d := if_pos h

theorem classifyFrame_fill {p : Params} {id : CanId} (hp : p.legal) (h : idType id = p.typeFill) (d : List Byte) :
    classifyFrame p id d = .canFill (idHigh id) (idAddress id) d := by
  obtain ⟨_, _, _, _, hshortFill, _⟩ := hp
  simp [classifyFrame, h, hshortFill.symm]

theorem classifyFrame_process {p : Params} {id : CanId} (hp : p.legal) (h : idType id = p.typeProcess) (d : List Byte) :
    classifyFrame p id d = .canProcess (idHigh id) (idAddress id) d := by
  obtain ⟨_, _, _, _, _, hshortProcess, hfillProcess, _⟩ := hp
  simp [classifyFrame, h, hshortProcess.symm, hfillProcess.symm]

theorem classifyFrame_other {p : Params} {id : CanId} (h : WellFormed.otherType p id) (d : List Byte) :
    classifyFrame p id d = .canOther id d := by
  obtain ⟨hshort, hfill, hprocess⟩ := h
  exact (if_neg hshort).trans ((if_neg hfill).trans (if_neg hprocess))

theorem classifyFrame_wellFormed (p : Params) (id : CanId) {d : List Byte} (hd : d.length ≤ 8) :
    WellFormed p (classifyFrame p id d) := by
  unfold classifyFrame
  split_ifs with hshort hfill hprocess
  · exact hd
  · exact hd
  · exact hd
  · exact ⟨hd, hshort, hfill, hprocess⟩

/-- A frame does as an instruction of its class what CAN_RX_FRAME does with it (43_can_rx.md R160). -/
theorem exec_classifyFrame (s : State) (id : CanId) (d : List Byte) :
    exec (classifyFrame s.params id d) s = exec (.rx id d) s := by
  show _ = execRx id d s
  unfold classifyFrame execRx
  split_ifs <;> rfl

theorem decode_canFrame {d : List Byte} (hd : d.length ≤ 8) (p : Params) (ph : Phase) (id : CanId) :
    decode p ph (.canFrame id d) = .ok (classifyFrame p id d, []) := if_neg (Nat.not_lt.mpr hd)

theorem decode_canFrame_error_iff {p : Params} {ph : Phase} {id : CanId} {d : List Byte} :
    (∃ e, decode p ph (.canFrame id d) = .error e) ↔ 8 < d.length := by
  by_cases hd : d.length ≤ 8
  · simp [decode_canFrame hd, hd]
  · simp [decode, Nat.lt_of_not_le hd]

/-! ## The class of a wire byte (R76, R92) -/

/-- Whatever a byte is read as, it does what CODEC_PROCESS_BYTE does with it. -/
theorem exec_classifyByte (ph : Phase) (k : Nat) (b : Byte) (s : State) :
    exec (classifyByte ph k b) s = exec (.byte k b) s := by
  unfold classifyByte
  split
  · split_ifs <;> subst_vars <;> rfl
  · split_ifs <;> subst_vars <;> rfl
  all_goals rfl

/-- Outside IDLE and END every byte is plain; in them every byte but the markers (R76, R80). -/
theorem classifyByte_plain {ph : Phase} {b : Byte} (hstart : ¬ (ph = .idle ∧ (b = 0x02 ∨ b = 0x03 ∨ b = 0x04)))
    (hend : ¬ (ph = .endMark ∧ b = 0x03)) (k : Nat) : classifyByte ph k b = .byte k b := by
  cases ph with
  | idle =>
    obtain ⟨h2, h3, h4⟩ : b ≠ 0x02 ∧ b ≠ 0x03 ∧ b ≠ 0x04 := by simpa using hstart
    simp only [classifyByte, if_neg h2, if_neg h3, if_neg h4]
  | endMark =>
    have h3 : b ≠ 0x03 := by simpa using hend
    simp only [classifyByte, if_neg h3]
  | _ => rfl

/-- Settles O50. -/
theorem wireBytesDecodeByPhase : Obligations.WireBytesDecodeByPhase := by
  intro p ph k b
  refine ⟨classifyByte ph k b, rfl, exec_classifyByte ph k b, ?_, ?_, ?_, ?_, fun hstart hend =>
    classifyByte_plain hstart hend k⟩
  all_goals
    rintro rfl rfl
    rfl

/-! ## The round trip (R70, R71, R76, R84, R86) -/

/-- A frame that is encoded is of its own class again, with its own fields. -/
theorem decode_encode_of_canFrame {p : Params} {i : Instr} {id : CanId} {d : List Byte} (hp : p.legal)
    (hwf : WellFormed p i) (hi : encode p i = .canFrame id d) (ph : Phase) :
    decode p ph (.canFrame id d) = .ok (i, []) := by
  cases i with
  | canShort hi a d =>
    cases hi
    rw [decode_canFrame hwf, classifyFrame_short (idType_canId _ _ _), idHigh_canId, idAddress_canId]
  | canFill hi a d =>
    cases hi
    rw [decode_canFrame hwf, classifyFrame_fill hp (idType_canId _ _ _), idHigh_canId, idAddress_canId]
  | canProcess hi a d =>
    cases hi
    rw [decode_canFrame hwf, classifyFrame_process hp (idType_canId _ _ _), idHigh_canId, idAddress_canId]
  | canOther id d =>
    cases hi
    rw [decode_canFrame hwf.1, classifyFrame_other hwf.2]
  | _ => cases hi

/-- A marker is read back in the phase of its row. -/
theorem decode_encode_of_wireByte {p : Params} {i : Instr} {k : Nat} {b : Byte} (hi : encode p i = .wireByte k b) :
    decode p (rowPhase i) (.wireByte k b) = .ok (i, []) := by
  cases i <;> cases hi <;> rfl

/-- Settles O1, interface by interface. -/
theorem decodeOfEncodeIsIdentity : Obligations.DecodeOfEncodeIsIdentity := by
  intro p i ph hp hwf hphase
  cases hi : encode p i with
  | command front => exact (congrArg _ (List.append_nil front).symm).trans (decodeCommand_of_encode hwf hi [])
  | canFrame id d => exact decode_encode_of_canFrame hp hwf hi ph
  | wireByte k b =>
    obtain rfl : ph = rowPhase i := hphase.resolve_right (fun h => h k b hi)
    exact decode_encode_of_wireByte hi

/-- Settles O4. -/
theorem specWordsDecode : Obligations.SpecWordsDecode := ⟨rfl, rfl, rfl, rfl, rfl, rfl⟩

/-! ## What a step refuses (R72) -/

/-- An operation, once decoded, is never refused as ill-formed. -/
theorem exec_ne_illFormed (i : Instr) (s : State) (e : DecodeError) : exec i s ≠ .refused (.illFormed e) := by
  cases hi : agentOf i with
  | codec k =>
    obtain ⟨g, hg, _⟩ := exec_codec hi s.params
    rw [hg s rfl]
    unfold State.onCodec
    split
    · nofun
    · split <;> nofun
  | canRx =>
    rcases exec_canRx hi s.params (s.entry (keyOf i)) with ⟨f, hf⟩ | ⟨r, _, hr⟩
    · rw [hf s rfl rfl]; nofun
    · rw [hr s rfl rfl]; nofun
  | crcEngine => cases i <;> cases hi; nofun
  | canTx => cases i <;> cases hi; nofun

/-- A step refuses what is presented as ill-formed exactly where the decoder does. -/
theorem step_illFormed_iff {s : State} {x : Encoded} {rest : List Input} (hinput : s.input = .present x :: rest) :
    (∃ e, step s = .refused (.illFormed e)) ↔ ∃ e, decode s.params (s.phaseFor x) x = .error e := by
  cases hdecode : decode s.params (s.phaseFor x) x with
  | ok r =>
    have hstep := step_of_fetch_ok hinput (State.fetch_of_decode_ok hdecode rest)
    simp [hstep, exec_ne_illFormed]
  | error e => simp [step, hinput, State.fetch, hdecode]

/-- Settles O3. -/
theorem illFormedCommandsAreRefused : Obligations.IllFormedCommandsAreRefused :=
  fun _ _ _ hinput => (step_illFormed_iff hinput).trans decodeCommand_error_iff

/-- Settles O51. -/
theorem canFramesActAsRxOrAreRefused : Obligations.CanFramesActAsRxOrAreRefused := by
  refine ⟨fun p ph id d hd => ⟨classifyFrame p id d, decode_canFrame hd p ph id, classifyFrame_wellFormed p id hd, ?_, ?_⟩,
    fun s id d rest hinput => (step_illFormed_iff hinput).trans decode_canFrame_error_iff⟩
  · rintro s rfl
    exact exec_classifyFrame s id d
  · intro hp
    simp only [ne_eq, typeOf_eq_iff]
    exact ⟨fun h => ⟨_, _, classifyFrame_short h d, idHigh_toNat id, (addressOf_eq id).symm⟩,
      fun h => ⟨_, _, classifyFrame_fill hp h d, idHigh_toNat id, (addressOf_eq id).symm⟩,
      fun h => ⟨_, _, classifyFrame_process hp h d, idHigh_toNat id, (addressOf_eq id).symm⟩,
      fun hshort hfill hprocess => classifyFrame_other ⟨hshort, hfill, hprocess⟩ d⟩

/-- Settles O34: CAN_RX_FRAME reads only the type and the address of an identifier of the three classes. -/
theorem highIdentifierBitsAreIgnored : Obligations.HighIdentifierBitsAreIgnored := by
  intro s id id' d hlow htype
  have htype' : idType id' = idType id := by
    rw [← BitVec.toNat_inj, ← typeOf_eq, ← typeOf_eq, Spec.typeOf, Spec.typeOf]
    omega
  have haddress : idAddress id' = idAddress id := by
    rw [← BitVec.toNat_inj, ← addressOf_eq, ← addressOf_eq, Spec.addressOf, Spec.addressOf]
    omega
  simp only [typeOf_eq_iff] at htype
  show execRx id d s = execRx id' d s
  unfold execRx
  rw [htype', haddress]
  split_ifs with hshort hfill hprocess
  · rfl
  · rfl
  · rfl
  · exact absurd htype (by simp [hshort, hfill, hprocess])

end Sys2Proof.Machine
end

section
/-! The encoding family (30_encoding.md), wire frames (R75 to R79): bytes fed to an open codec run its byte step one after
another, so a length field, a payload and a trailer each have one rule, by induction on their bytes. -/

namespace Sys2Proof.Machine

/-! ## Numbers and their bytes (00_scope.md R8) -/

theorem number_append_singleton (f : List Byte) (b : Byte) : Spec.number (f ++ [b]) = 256 * Spec.number f + b.toNat :=
  List.foldl_append

theorem number_lt (f : List Byte) : Spec.number f < 256 ^ f.length := by
  induction f using List.reverseRecOn with
  | nil => exact Nat.one_pos
  | append_singleton f b ih =>
    have hb := b.isLt
    rw [number_append_singleton, List.length_append, List.length_singleton, Nat.pow_succ]
    omega

theorem bytesOf_succ (w n : Nat) : Spec.bytesOf (w + 1) n = Spec.bytesOf w (n / 256) ++ [BitVec.ofNat 8 n] := by
  have hlow : n / 256 ^ (w - w) = n := by simp
  have hhigh : ∀ i ∈ List.range w, BitVec.ofNat 8 (n / 256 ^ (w - i)) = BitVec.ofNat 8 (n / 256 / 256 ^ (w - 1 - i)) := by
    intro i hi
    have hi := List.mem_range.mp hi
    rw [Nat.div_div_eq_div_mul, ← Nat.pow_succ', show (w - 1 - i).succ = w - i by omega]
  simp only [Spec.bytesOf, List.range_succ, List.map_append, List.map_singleton, Nat.add_sub_cancel, hlow,
    List.map_congr_left hhigh]

theorem length_bytesOf (w n : Nat) : (Spec.bytesOf w n).length = w := by simp [Spec.bytesOf]

/-- A field of `w` bytes spells the number it was made from. -/
theorem number_bytesOf (w n : Nat) (hn : n < 256 ^ w) : Spec.number (Spec.bytesOf w n) = n := by
  induction w generalizing n with
  | zero =>
    obtain rfl : n = 0 := by simpa using hn
    rfl
  | succ w ih =>
    rw [Nat.pow_succ] at hn
    rw [bytesOf_succ, number_append_singleton, ih _ (by omega), BitVec.toNat_ofNat]
    omega

/-! ## Bytes fed to a codec (R94) -/

/-- The byte step of codec `k`, for each byte in turn. -/
def processBytes (p : Params) (k : Nat) (bytes : List Byte) (c : Codec) : Except Fault Codec :=
  bytes.foldlM (fun c b => processByte p k b c) c

@[simp] theorem processBytes_nil (p : Params) (k : Nat) (c : Codec) : processBytes p k [] c = .ok c := rfl

theorem processBytes_cons {p : Params} {k : Nat} {b : Byte} {c c' : Codec} (h : processByte p k b c = .ok c')
    (rest : List Byte) : processBytes p k (b :: rest) c = processBytes p k rest c' := by
  simp only [processBytes, List.foldlM_cons, h]
  rfl

theorem processBytes_append {p : Params} {k : Nat} {front : List Byte} {c c' : Codec}
    (h : processBytes p k front c = .ok c') (rest : List Byte) :
    processBytes p k (front ++ rest) c = processBytes p k rest c' := by
  unfold processBytes at h ⊢
  rw [List.foldlM_append, h]
  rfl

/-- Bytes fed to an open instance change that instance alone, as its byte step says. -/
theorem execAll_feed {s : State} {k : Nat} {c c' : Codec} {bytes : List Byte} (hopen : s.openAt k c)
    (h : processBytes s.params k bytes c = .ok c') : execAll (feed k bytes) s = .next (Spec.withCodec s k c') := by
  induction bytes generalizing s c with
  | nil =>
    cases h
    exact congrArg _ (State.setCodec_same hopen.1).symm
  | cons b rest ih =>
    obtain ⟨c1, hstep, hlife, _⟩ := processByte_cases s.params k b c
    rw [processBytes_cons hstep] at h
    have hexec : exec (.byte k b) s = .next (s.setCodec k c1) := State.onCodec_ok hopen hstep
    have hopen1 : (s.setCodec k c1).openAt k c1 := ⟨State.getElem_setCodec_self hopen.1 c1, hlife.trans hopen.2⟩
    have hrest := ih hopen1 h
    simp only [feed, List.map_cons, execAll, hexec]
    exact hrest.trans (congrArg _ (State.setCodec_setCodec s k c1 c'))

/-! ## The length field (R76, R77; 41_codec.md R112 to R115) -/

/-- The codec in LENGTH with the bytes `f` of a length field of `w` bytes received. -/
def Codec.inLength (w : Nat) (f : List Byte) (c : Codec) : Codec :=
  { c with lenWidth := w, lenGot := f.length, len := BitVec.ofNat 24 (Spec.number f), phase := .length }

/-- The codec once a length field of `w` bytes has spelled `n`: the length rejected, the payload skipped or begun. -/
def Codec.afterLength (p : Params) (w n : Nat) (c : Codec) : Codec :=
  { c with
    lenWidth := w
    lenGot := w
    len := BitVec.ofNat 24 n
    cursor := if p.maxPayload < n then c.cursor else 0
    phase := if p.maxPayload < n then .idle else if n = 0 then .crcHi else .payload }

theorem processByte_marker (p : Params) (k : Nat) {w : Nat} (hlo : 1 ≤ w) (hhi : w ≤ 3) {c : Codec}
    (hphase : c.phase = .idle) : processByte p k (Spec.marker w) c = .ok (c.inLength w []) := by
  obtain rfl | rfl | rfl : w = 1 ∨ w = 2 ∨ w = 3 := by omega
  all_goals
    simp only [processByte, hphase]
    rfl

theorem pushLength_eq {f : List Byte} (hf : f.length ≤ 2) (b : Byte) :
    pushLength (BitVec.ofNat 24 (Spec.number f)) b = BitVec.ofNat 24 (Spec.number (f ++ [b])) := by
  have hb := b.isLt
  have hn : Spec.number f < 256 ^ 2 := (number_lt f).trans_le (Nat.pow_le_pow_right (by decide) hf)
  have hlen : (BitVec.ofNat 24 (Spec.number f)).toNat = Spec.number f := Nat.mod_eq_of_lt (by omega)
  rw [← BitVec.toNat_inj, pushLength_toNat (by omega), hlen, number_append_singleton, BitVec.toNat_ofNat,
    Nat.mod_eq_of_lt (by omega)]

theorem number_ofNat_toNat {f : List Byte} (hf : f.length ≤ 3) :
    (BitVec.ofNat 24 (Spec.number f)).toNat = Spec.number f :=
  Nat.mod_eq_of_lt ((number_lt f).trans_le (Nat.pow_le_pow_right (by decide) hf))

/-- A length byte that is not the last is counted (41_codec.md R113). -/
theorem processByte_length_more (p : Params) (k : Nat) {w : Nat} {f : List Byte} (b : Byte) (hmore : f.length + 1 < w)
    (hw : w ≤ 3) (c : Codec) : processByte p k b (c.inLength w f) = .ok (c.inLength w (f ++ [b])) := by
  have hgot : ¬ f.length + 1 = w := by omega
  simp only [processByte, byteLength, Codec.inLength, if_neg hgot, pushLength_eq (by omega : f.length ≤ 2),
    List.length_append, List.length_singleton]

/-- The last length byte decides (41_codec.md R113, R115). -/
theorem processByte_length_last (p : Params) (k : Nat) {w : Nat} {f : List Byte} (b : Byte) (hlast : f.length + 1 = w)
    (hw : w ≤ 3) (c : Codec) :
    processByte p k b (c.inLength w f) = .ok (c.afterLength p w (Spec.number (f ++ [b]))) := by
  have hpush := pushLength_eq (by omega : f.length ≤ 2) b
  have hlen := number_ofNat_toNat (f := f ++ [b]) (by simp; omega)
  have hzero : BitVec.ofNat 24 (Spec.number (f ++ [b])) = 0 ↔ Spec.number (f ++ [b]) = 0 := by
    rw [← BitVec.toNat_inj, hlen]
    rfl
  simp only [processByte, byteLength, Codec.inLength, Codec.afterLength, hpush, hlen, hzero, hlast]
  split_ifs <;> rfl

theorem processBytes_partialLength (p : Params) (k : Nat) {w : Nat} (hw : w ≤ 3) (f : List Byte) (hf : f.length < w)
    (c : Codec) : processBytes p k f (c.inLength w []) = .ok (c.inLength w f) := by
  induction f using List.reverseRecOn with
  | nil => rfl
  | append_singleton f b ih =>
    have hmore : f.length + 1 < w := by simpa using hf
    rw [processBytes_append (ih (by omega))]
    exact processBytes_cons (processByte_length_more p k b hmore hw c) []

/-- A start marker and its length field leave the length they spell. -/
theorem processBytes_lengthField (p : Params) (k : Nat) {f : List Byte} (hlo : 1 ≤ f.length) (hhi : f.length ≤ 3)
    {c : Codec} (hphase : c.phase = .idle) :
    processBytes p k (Spec.marker f.length :: f) c = .ok (c.afterLength p f.length (Spec.number f)) := by
  rw [processBytes_cons (processByte_marker p k hlo hhi hphase)]
  obtain ⟨init, b, rfl⟩ := List.eq_nil_or_concat' f |>.resolve_left (List.ne_nil_of_length_pos hlo)
  have hlast : init.length + 1 = (init ++ [b]).length := by simp
  rw [processBytes_append (processBytes_partialLength p k hhi init (by omega) c)]
  exact processBytes_cons (processByte_length_last p k b hlast hhi c) []

/-- Settles O18. -/
theorem lengthFieldSpellsItsNumber : Obligations.LengthFieldSpellsItsNumber := by
  intro s k c f hopen hphase hlo hhi
  refine ⟨_, execAll_feed hopen (processBytes_lengthField s.params k hlo hhi hphase), number_ofNat_toNat hhi, rfl, rfl,
    fun hlong => ?_, fun hfits => ?_⟩
  · simp [Codec.afterLength, hlong]
  · simp [Codec.afterLength, Nat.not_lt.mpr hfits]

/-! ## The payload and the trailer (41_codec.md R116 to R119) -/

theorem Memory.setBytes_append (m : Memory) (a : Nat) (xs ys : List Byte) :
    m.setBytes a (xs ++ ys) = (m.setBytes a xs).setBytes (a + xs.length) ys := by
  induction xs generalizing m a with
  | nil => rfl
  | cons x xs ih =>
    simp only [List.cons_append, Memory.setBytes, ih, List.length_cons]
    congr 1
    omega

/-- The codec with the payload bytes `P` received, those below `RX_CAPACITY` stored; CRC_HI if they are all. -/
def Codec.inPayload (p : Params) (P : List Byte) (c : Codec) : Codec :=
  { c with
    buf := c.buf.setBytes 0 (P.take p.rxCapacity)
    cursor := P.length
    phase := if P.length = c.len.toNat then .crcHi else .payload }

/-- A payload byte is stored at the cursor if that lies below `RX_CAPACITY` (41_codec.md R116). -/
theorem Codec.bufAfter_inPayload (p : Params) (P : List Byte) (b : Byte) (c : Codec) :
    (c.inPayload p P).bufAfter p b = (c.inPayload p (P ++ [b])).buf := by
  unfold Codec.bufAfter Codec.inPayload
  dsimp only
  split
  · rename_i hroom
    rw [List.take_of_length_le hroom.le, List.take_of_length_le (by simpa using hroom), Memory.setBytes_append,
      Nat.zero_add]
    rfl
  · rename_i hfull
    rw [List.take_append_of_le_length (Nat.not_lt.mp hfull)]

theorem processByte_payload (p : Params) (k : Nat) {P : List Byte} (b : Byte) {c : Codec}
    (hmore : P.length < c.len.toNat) :
    processByte p k b (c.inPayload p P) = .ok (c.inPayload p (P ++ [b])) := by
  have hphase : (c.inPayload p P).phase = .payload := if_neg hmore.ne
  have hstep : bytePayload p k b (c.inPayload p P) = .ok { c.inPayload p P with
      buf := (c.inPayload p P).bufAfter p b, cursor := P.length + 1
      phase := if P.length + 1 = c.len.toNat then .crcHi else .payload } := bytePayload_eq p k b _
  simp only [processByte, hphase, hstep, Codec.bufAfter_inPayload]
  simp only [Codec.inPayload, List.length_append, List.length_singleton]

theorem processBytes_payload (p : Params) (k : Nat) (P : List Byte) {c : Codec} (hfits : P.length ≤ c.len.toNat) :
    processBytes p k P (c.inPayload p []) = .ok (c.inPayload p P) := by
  induction P using List.reverseRecOn with
  | nil => rfl
  | append_singleton P b ih =>
    have hmore : P.length < c.len.toNat := by simpa using hfits
    rw [processBytes_append (ih hmore.le)]
    exact processBytes_cons (processByte_payload p k b hmore) []

/-- A length that is not rejected begins the payload, or skips it if it is 0 (41_codec.md R113, R114). -/
theorem Codec.afterLength_eq_inPayload {p : Params} {n : Nat} (hmax : n ≤ p.maxPayload) (hn : n < 16777216) (w : Nat)
    (c : Codec) : c.afterLength p w n = (c.afterLength p w n).inPayload p [] := by
  have hlen : (BitVec.ofNat 24 n).toNat = n := Nat.mod_eq_of_lt hn
  simp only [Codec.afterLength, Codec.inPayload, Nat.not_lt.mpr hmax, if_false, hlen, List.length_nil, eq_comm (a := 0),
    List.take_nil, Memory.setBytes]

/-- The checksum is received high byte first (R75; 41_codec.md R117, R118). -/
theorem crcLow_crcHigh (hi lo : Byte) : crcLow (crcHigh hi) lo = u16OfBytes hi lo := by
  have hhi := hi.isLt
  have hlo := lo.isLt
  have hshift : hi.toNat <<< 8 < 2 ^ 16 := by rw [Nat.shiftLeft_eq]; omega
  rw [← BitVec.toNat_inj, u16OfBytes, BitVec.toNat_append, crcLow, crcHigh, BitVec.toNat_or, BitVec.toNat_shiftLeft,
    BitVec.toNat_setWidth_of_le (by decide), BitVec.toNat_setWidth_of_le (by decide), Nat.mod_eq_of_lt hshift]

theorem u16OfBytes_crc (crc : U16) : u16OfBytes (Spec.crcHiOf crc) (Spec.crcLoOf crc) = crc := by
  have hcrc := crc.isLt
  rw [← BitVec.toNat_inj, u16OfBytes, toNat_append_eq, Spec.crcHiOf, Spec.crcLoOf, BitVec.toNat_ofNat, BitVec.toNat_ofNat]
  omega

/-- The codec in END, with a frame of payload `P` and checksum bytes `hi` and `lo` received but for its end marker. -/
def Codec.atEnd (p : Params) (w : Nat) (P : List Byte) (hi lo : Byte) (c : Codec) : Codec :=
  { c with
    lenWidth := w
    lenGot := w
    len := BitVec.ofNat 24 P.length
    buf := c.buf.setBytes 0 (P.take p.rxCapacity)
    cursor := P.length
    crcRx := u16OfBytes hi lo
    phase := .endMark }

theorem processBytes_trailer (p : Params) (k : Nat) (hi lo : Byte) {c : Codec} (hphase : c.phase = .crcHi) :
    processBytes p k [hi, lo] c = .ok { c with crcRx := u16OfBytes hi lo, phase := .endMark } := by
  have hhigh : processByte p k hi c = .ok { c with crcRx := crcHigh hi, phase := .crcLo } := by
    simp only [processByte, hphase]
    rfl
  rw [processBytes_cons hhigh, ← crcLow_crcHigh]
  rfl

/-- A frame up to its end marker, with a length field of any width that holds its length (R75, R79). -/
theorem processBytes_untilEnd {p : Params} (k : Nat) {w : Nat} (hlo : 1 ≤ w) (hhi : w ≤ 3) {P : List Byte}
    (hwidth : P.length < 256 ^ w) (hmax : P.length ≤ p.maxPayload) (hi lo : Byte) {c : Codec} (hphase : c.phase = .idle) :
    processBytes p k ([Spec.marker w] ++ Spec.bytesOf w P.length ++ P ++ [hi, lo]) c = .ok (c.atEnd p w P hi lo) := by
  have hn : P.length < 16777216 := hwidth.trans_le (Nat.pow_le_pow_right (by decide) hhi)
  have hlen : (c.afterLength p w P.length).len.toNat = P.length := Nat.mod_eq_of_lt hn
  have hfield := length_bytesOf w P.length
  have hlength := processBytes_lengthField p k (hlo.trans_eq hfield.symm) (hfield.trans_le hhi) hphase
  rw [hfield, number_bytesOf w P.length hwidth, Codec.afterLength_eq_inPayload hmax hn] at hlength
  rw [List.append_assoc, List.singleton_append, processBytes_append hlength,
    processBytes_append (processBytes_payload p k P hlen.ge), processBytes_trailer p k hi lo (if_pos hlen.symm)]
  rfl

/-- A payload that fits the receive buffer is read back from it whole. -/
theorem Codec.atEnd_received {p : Params} {w : Nat} {P : List Byte} (hcap : P.length ≤ p.rxCapacity)
    (hlen : P.length < 16777216) (hi lo : Byte) (c : Codec) (k : Nat) : (c.atEnd p w P hi lo).received k = P := by
  have hlen' : (c.atEnd p w P hi lo).len.toNat = P.length := Nat.mod_eq_of_lt hlen
  refine Codec.received_holds hlen' (fun i hlt => ?_) k
  simp [Codec.atEnd, List.take_of_length_le hcap, Memory.byteAt_setBytes, hlt]

/-- The end marker delivers a payload that fits the receive buffer and has the checksum received (41_codec.md R119). -/
theorem processByte_atEnd {p : Params} {w : Nat} {P : List Byte} (hcap : P.length ≤ p.rxCapacity)
    (hlen : P.length < 16777216) {hi lo : Byte} (hcrc : u16OfBytes hi lo = crc16 P) (c : Codec) (k : Nat) :
    processByte p k 0x03 (c.atEnd p w P hi lo) =
      .ok { c.atEnd p w P hi lo with phase := .idle, onPayload := c.onPayload ++ [P] } := by
  have hreceived := Codec.atEnd_received (w := w) hcap hlen hi lo c k
  have hpass : (0x03 : Byte) = 0x03 ∧ (c.atEnd p w P hi lo).len.toNat ≤ p.rxCapacity ∧
      crc16 ((c.atEnd p w P hi lo).received k) = (c.atEnd p w P hi lo).crcRx :=
    ⟨rfl, (Nat.mod_le _ _).trans hcap, hreceived.symm ▸ hcrc.symm⟩
  refine (byteEnd_eq p k 0x03 _).trans ?_
  rw [if_pos hpass, hreceived]
  rfl

/-- Settles O20. -/
theorem anyLengthWidthIsAccepted : Obligations.AnyLengthWidthIsAccepted := by
  intro s k w c P hopen hphase hlo hhi hwidth hmax hcap
  have hlen : P.length < 16777216 := hwidth.trans_le (Nat.pow_le_pow_right (by decide) hhi)
  have hbody := processBytes_untilEnd k hlo hhi hwidth hmax (Spec.crcHiOf (crc16 P)) (Spec.crcLoOf (crc16 P)) hphase
  have hend := processByte_atEnd (w := w) hcap hlen (u16OfBytes_crc (crc16 P)) c k
  exact ⟨_, execAll_feed hopen ((processBytes_append hbody [0x03]).trans (processBytes_cons hend [])), rfl, rfl⟩

end Sys2Proof.Machine
end

section
/-! The encoding family (30_encoding.md), the frames of a payload (R84, R87 to R90): their number, kinds and offsets. -/

namespace Sys2Proof.Machine

theorem number_be16 {n : Nat} (hn : n < 65536) : Spec.number (be16 (BitVec.ofNat 16 n)) = n := by
  simp only [Spec.number, be16, List.foldl_cons, List.foldl_nil, toNat_extractLsb'_eq, BitVec.toNat_ofNat]
  omega

theorem typeOf_canId (hi : BitVec 13) (type a : Byte) : Spec.typeOf (canId hi type a) = type.toNat :=
  typeOf_eq_iff.mpr (idType_canId hi type a)

/-- A FILL frame carries its offset in its first two data bytes (R88). -/
theorem number_fillFrame (ps : Params) (a : Byte) (p : List Byte) {off : Nat} (hoff : off < 65536) :
    Spec.number ((fillFrame ps a p off).data.take 2) = off := number_be16 hoff

/-- A payload that is sent whole is not too long, and its frames are sent in order (42_can_tx.md R147 to R149). -/
theorem sendBuffer_ok {ps : Params} {b : Bus} {a : Byte} {p : List Byte} (h : (sendBuffer ps b a p).status = .ok) :
    (sendBuffer ps b a p).sent = fragment ps a p := by
  unfold sendBuffer at h ⊢
  split at h
  · cases h
  · rename_i hlen
    rw [if_neg hlen]
    rcases offerAll_cases ps.txMaxAttempts b (fragment ps a p) with ⟨_, hsent⟩ | ⟨habandoned, _⟩
    · exact hsent
    · rw [habandoned] at h
      cases h

theorem txFrame_of_sendbuf_ok {s t : State} {a : Byte} {p : List Byte} (h : exec (.sendbuf a p) s = .next t)
    (hok : t.sendReturned = s.sendReturned ++ [.ok]) : t.txFrame = s.txFrame ++ fragment s.params a p := by
  rw [exec_sendbuf_eq] at h
  cases h
  have hstatus : (sendBuffer s.params s.bus a p).status = .ok := by
    simpa [UnitWrite.apply] using hok
  exact congrArg (s.txFrame ++ ·) (sendBuffer_ok hstatus)

theorem fragment_short (ps : Params) (a : Byte) {p : List Byte} (hp : p.length ≤ 6) :
    fragment ps a p = [shortFrame ps a p] := if_pos hp

theorem fragment_long (ps : Params) (a : Byte) {p : List Byte} (hlo : 7 ≤ p.length) (hhi : p.length ≤ 65535) :
    fragment ps a p = fillFrames ps a p ++ [processFrame ps a p.length] :=
  (if_neg (by omega)).trans (if_pos hhi)

theorem mem_fillFrames {ps : Params} {a : Byte} {p : List Byte} {f : CanFrame} :
    f ∈ fillFrames ps a p ↔ ∃ i, i < (p.length + 5) / 6 ∧ f = fillFrame ps a p (6 * i) := by
  simp [fillFrames, eq_comm]

/-- Settles O28. -/
theorem sendbufFrameCounts : Obligations.SendbufFrameCounts := by
  intro s t a p hsend hok
  have htx := txFrame_of_sendbuf_ok hsend hok
  refine ⟨fun hp => ?_, fun hlo hhi => ?_⟩
  · rw [fragment_short _ _ hp] at htx
    exact ⟨_, htx, typeOf_canId _ _ _⟩
  · rw [fragment_long _ _ hlo hhi, ← List.append_assoc] at htx
    refine ⟨by omega, _, _, htx, by simp [fillFrames], fun f hf => ?_, ?_, typeOf_canId _ _ _⟩
    · obtain ⟨i, hi, rfl⟩ := mem_fillFrames.mp hf
      refine ⟨typeOf_canId _ _ _, ?_⟩
      rw [number_fillFrame _ _ _ (by omega)]
      omega
    · exact ⟨_, mem_fillFrames.mpr ⟨(p.length + 5) / 6 - 1, by omega, rfl⟩, number_fillFrame _ _ _ (by omega)⟩

end Sys2Proof.Machine
end

section
/-! The CRC family (40_crc.md), the laws of the checksum. The update of R103 is linear, and rounds that meet no carry only shift:
the table form (R105) and the laws of R106 follow. -/

namespace Sys2Proof.Machine

/-! ## The rounds and the update are linear (R103) -/

theorem crcRound_eq (c : U16) : crcRound c = (c <<< 1) ^^^ if c.getLsbD 15 then 0x1021 else 0 := by
  unfold crcRound
  split
  · rfl
  · exact (BitVec.xor_zero (x := c <<< 1)).symm

theorem crcRound_xor (c d : U16) : crcRound (c ^^^ d) = crcRound c ^^^ crcRound d := by
  have hcarry : ∀ x y : Bool,
      (if x ^^ y then (0x1021 : U16) else 0) = (if x then 0x1021 else 0) ^^^ if y then 0x1021 else 0 := by decide
  rw [crcRound_eq, crcRound_eq, crcRound_eq, BitVec.getLsbD_xor, hcarry, BitVec.shiftLeft_xor_distrib]
  ac_rfl

theorem crcRounds_xor (n : Nat) (c d : U16) :
    Nat.repeat crcRound n (c ^^^ d) = Nat.repeat crcRound n c ^^^ Nat.repeat crcRound n d := by
  induction n with
  | zero => rfl
  | succ n ih => rw [Nat.repeat, ih, crcRound_xor]; rfl

/-- Rounds that meet no carry only shift. -/
theorem crcRounds_of_high_clear (n : Nat) {c : U16} (hclear : ∀ i, 16 ≤ i + n → c.getLsbD i = false) :
    Nat.repeat crcRound n c = c <<< n := by
  induction n with
  | zero => exact (BitVec.shiftLeft_zero c).symm
  | succ n ih =>
    have hcarry : (c <<< n).getLsbD 15 = false := by
      rw [BitVec.getLsbD_shiftLeft, hclear (15 - n) (by omega), Bool.and_false]
    rw [Nat.repeat, ih fun i hi => hclear i (by omega), crcRound, hcarry, BitVec.shiftLeft_add]
    rfl

/-- `crcHigh b` is the byte at bits 15:8, where R103 has it enter the register. -/
theorem crcUpdate_eq (c : U16) (b : Byte) : crcUpdate c b = Nat.repeat crcRound 8 (c ^^^ crcHigh b) := rfl

theorem crcHigh_xor (a b : Byte) : crcHigh (a ^^^ b) = crcHigh a ^^^ crcHigh b := by
  rw [crcHigh, BitVec.setWidth_xor, BitVec.shiftLeft_xor_distrib]
  rfl

theorem crcUpdate_xor (c d : U16) (a b : Byte) : crcUpdate (c ^^^ d) (a ^^^ b) = crcUpdate c a ^^^ crcUpdate d b := by
  rw [crcUpdate_eq, crcUpdate_eq, crcUpdate_eq, ← crcRounds_xor, crcHigh_xor]
  congr 1
  ac_rfl

theorem crcUpdate_zero_zero : crcUpdate 0 0 = 0 := by decide

/-! ## The table form (R105) -/

/-- Entering the register's own high byte clears bits 15:8. -/
theorem xor_crcHigh_high (c : U16) : c ^^^ crcHigh ((c >>> 8).setWidth 8) = (c.setWidth 8).setWidth 16 := by
  ext i hi
  by_cases hlow : i < 8
  · simp [crcHigh, hlow, hi]
  · have hbyte : i - 8 < 8 := by omega
    have hback : 8 + (i - 8) = i := by omega
    simp [crcHigh, hlow, hbyte, hback, hi]

/-- The update by the register's own high byte shifts that byte out. -/
theorem crcUpdate_high (c : U16) : crcUpdate c ((c >>> 8).setWidth 8) = c <<< 8 := by
  have hclear : ∀ i, 16 ≤ i + 8 → ((c.setWidth 8).setWidth 16).getLsbD i = false := fun i hi => by
    rw [BitVec.getLsbD_setWidth, BitVec.getLsbD_of_ge _ _ (show 8 ≤ i by omega), Bool.and_false]
  have hshift : (c.setWidth 8).setWidth 16 <<< 8 = c <<< 8 := by grind
  rw [crcUpdate_eq, xor_crcHigh_high, crcRounds_of_high_clear 8 hclear, hshift]

/-- Settles O9: the register is its high byte, which the table takes, and the rest, which is only shifted. -/
theorem crcTableFormAgrees : Obligations.CrcTableFormAgrees := by
  refine ⟨fun c b => ?_, fun i => rfl⟩
  have hsplit := crcUpdate_xor c 0 ((c >>> 8).setWidth 8) ((c >>> 8).setWidth 8 ^^^ b)
  rw [crcUpdate_high, ← BitVec.xor_assoc, BitVec.xor_self, BitVec.zero_xor] at hsplit
  rwa [show c ^^^ 0 = c from BitVec.xor_zero] at hsplit

/-! ## The laws (R106) -/

/-- The loop of R101 over the bytewise exclusive-or, from any two registers. -/
theorem foldl_crcUpdate_xor (s t : List Byte) (hlen : s.length = t.length) (c d : U16) :
    (List.zipWith (· ^^^ ·) s t).foldl crcUpdate (c ^^^ d) = s.foldl crcUpdate c ^^^ t.foldl crcUpdate d := by
  induction s generalizing t c d with
  | nil =>
    obtain rfl := List.length_eq_zero_iff.mp hlen.symm
    rfl
  | cons a s ih =>
    obtain ⟨b, t, rfl⟩ := List.exists_cons_of_length_eq_add_one hlen.symm
    rw [List.zipWith_cons_cons, List.foldl_cons, crcUpdate_xor, ih t (Nat.succ.inj hlen)]
    rfl

theorem crc16_append (s t : List Byte) : crc16 (s ++ t) = t.foldl crcUpdate (crc16 s) := List.foldl_append

theorem crc16_append_singleton (s : List Byte) (b : Byte) : crc16 (s ++ [b]) = crcUpdate (crc16 s) b := crc16_append s [b]

theorem bytesOf_two (c : U16) : Spec.bytesOf 2 c.toNat = [(c >>> 8).setWidth 8, c.setWidth 8] := by
  simp [Spec.bytesOf, List.range_succ, ← BitVec.toNat_inj, Nat.shiftRight_eq_div_pow]

/-- The checksum's own two bytes, high byte first, clear the register. -/
theorem crcUpdate_checksum (c : U16) : crcUpdate (crcUpdate c ((c >>> 8).setWidth 8)) (c.setWidth 8) = 0 := by
  have hlow : ((c <<< 8) >>> 8).setWidth 8 = c.setWidth 8 := by grind
  rw [crcUpdate_high, ← hlow, crcUpdate_high, ← BitVec.shiftLeft_add]
  exact BitVec.shiftLeft_eq_zero (by decide)

/-- Settles O10. The append law: each of the checksum's bytes shifts one byte of the register out. -/
theorem crcLaws : Obligations.CrcLaws := by
  refine ⟨rfl, fun s => congrArg (s.foldl crcUpdate ·) crcUpdate_zero_zero,
    fun s t hlen => foldl_crcUpdate_xor s t hlen 0 0, fun s => ?_, fun b => rfl, by decide, crc16_append⟩
  rw [crc16_append, bytesOf_two]
  exact crcUpdate_checksum (crc16 s)

end Sys2Proof.Machine
end

section
/-! The CRC family (40_crc.md), the polynomial form (R104). With words read as polynomials over GF(2) a round of R103 multiplies
by `x` modulo the generator, so after any bytes the loop of R101 holds `M(x) * x^16` modulo the generator. -/

namespace Sys2Proof.Machine

open Polynomial Finset

/-! ## Words and messages as polynomials over GF(2) -/

/-- The polynomial with the bits `f 0`, …, `f (n - 1)` as coefficients. -/
noncomputable def bitPoly (n : Nat) (f : Nat → Bool) : (ZMod 2)[X] := ∑ i ∈ range n, if f i then X ^ i else 0

theorem coeff_bitPoly (n : Nat) (f : Nat → Bool) (i : Nat) :
    (bitPoly n f).coeff i = if i < n ∧ f i = true then 1 else 0 := by
  have hterm (k : Nat) : (if f k then X ^ k else 0 : (ZMod 2)[X]).coeff i = if i = k then if f k then 1 else 0 else 0 := by
    split <;> simp [coeff_X_pow]
  rw [bitPoly, finsetSum_coeff, sum_congr rfl fun k _ => hterm k, sum_ite_eq, ite_and]
  simp only [mem_range]

theorem hasBits_iff {f : Nat → Bool} {n : Nat} {q : (ZMod 2)[X]} : Spec.HasBits f n q ↔ q = bitPoly n f := by
  rw [Polynomial.ext_iff]
  exact forall_congr' fun i => by rw [coeff_bitPoly]

theorem degree_bitPoly_lt (n : Nat) (f : Nat → Bool) : (bitPoly n f).degree < n := by
  rw [degree_lt_iff_coeff_zero]
  intro i hi
  rw [coeff_bitPoly, if_neg fun h => by omega]

theorem bitPoly_congr {n : Nat} {f g : Nat → Bool} (h : ∀ i < n, f i = g i) : bitPoly n f = bitPoly n g :=
  sum_congr rfl fun i hi => by rw [h i (mem_range.mp hi)]

theorem bitPoly_zero (n : Nat) : bitPoly n (0 : BitVec n).getLsbD = 0 :=
  sum_eq_zero fun _ _ => if_neg (by rw [show (0 : BitVec n) = 0#n from rfl, BitVec.getLsbD_zero]; decide)

/-- Addition over GF(2) is exclusive-or. -/
theorem bitPoly_xor {n : Nat} (c d : BitVec n) :
    bitPoly n (c ^^^ d).getLsbD = bitPoly n c.getLsbD + bitPoly n d.getLsbD := by
  rw [bitPoly, bitPoly, bitPoly, ← sum_add_distrib]
  refine sum_congr rfl fun i _ => ?_
  rw [BitVec.getLsbD_xor]
  cases c.getLsbD i <;> cases d.getLsbD i <;> simp [CharTwo.add_self_eq_zero]

/-- The bits from `m` on are `X ^ m` times their own polynomial. -/
theorem bitPoly_add (m n : Nat) (f : Nat → Bool) :
    bitPoly (m + n) f = bitPoly m f + X ^ m * bitPoly n fun i => f (m + i) := by
  simp only [bitPoly, sum_range_add, mul_sum, mul_ite, mul_zero, pow_add]

theorem bitPoly_append {m n : Nat} (c : BitVec m) (d : BitVec n) :
    bitPoly (m + n) (c ++ d).getLsbD = bitPoly n d.getLsbD + X ^ n * bitPoly m c.getLsbD := by
  refine (congrArg (bitPoly · (c ++ d).getLsbD) (Nat.add_comm m n)).trans ((bitPoly_add n m _).trans ?_)
  congr 1
  · exact bitPoly_congr fun i hi => by rw [BitVec.getLsbD_append, if_pos hi]
  · congr 1
    exact bitPoly_congr fun i _ => by rw [BitVec.getLsbD_append, if_neg (by omega), Nat.add_sub_cancel_left]

theorem messageBit_append_low (s : List Byte) (b : Byte) {i : Nat} (hi : i < 8) :
    Spec.messageBit (s ++ [b]) i = b.getLsbD i := by
  simp [Spec.messageBit, Nat.div_eq_of_lt hi, Nat.mod_eq_of_lt hi]

theorem messageBit_append_high (s : List Byte) (b : Byte) (i : Nat) :
    Spec.messageBit (s ++ [b]) (8 + i) = Spec.messageBit s i := by
  simp [Spec.messageBit, Nat.add_div_left]

/-- `M(x)` (R104). -/
noncomputable def messagePoly (s : List Byte) : (ZMod 2)[X] := bitPoly (8 * s.length) (Spec.messageBit s)

theorem messagePoly_append_singleton (s : List Byte) (b : Byte) :
    messagePoly (s ++ [b]) = bitPoly 8 b.getLsbD + X ^ 8 * messagePoly s := by
  rw [messagePoly, List.length_append, List.length_singleton, Nat.mul_add, Nat.add_comm, bitPoly_add,
    bitPoly_congr fun i hi => messageBit_append_low s b hi, funext (messageBit_append_high s b), messagePoly]

/-! ## The loop of R101 modulo the generator (R104) -/

/-- The generator polynomial of R104. -/
noncomputable def crcGenerator : (ZMod 2)[X] := X ^ 16 + X ^ 12 + X ^ 5 + 1

/-- The constant of R103 holds the generator's coefficients below `x^16`. -/
theorem crcGenerator_eq : crcGenerator = X ^ 16 + bitPoly 16 (0x1021 : U16).getLsbD := by
  have hlow : bitPoly 16 (0x1021 : U16).getLsbD = 1 + X ^ 5 + X ^ 12 := by simp [bitPoly, sum_range_succ]
  rw [crcGenerator, hlow]
  ring

theorem crcGenerator_monic : crcGenerator.Monic := by
  rw [crcGenerator_eq]
  exact monic_X_pow_add (degree_bitPoly_lt _ _)

theorem crcGenerator_degree : crcGenerator.degree = 16 := by
  have hlow : (bitPoly 16 (0x1021 : U16).getLsbD).degree < (X ^ 16 : (ZMod 2)[X]).degree :=
    (degree_bitPoly_lt _ _).trans_eq (degree_X_pow 16).symm
  rw [crcGenerator_eq, degree_add_eq_left_of_degree_lt hlow, degree_X_pow]
  rfl

/-- The word `c` as a polynomial modulo the generator. -/
noncomputable def crcResidue {n : Nat} (c : BitVec n) : AdjoinRoot crcGenerator := .mk crcGenerator (bitPoly n c.getLsbD)

theorem crcResidue_xor {n : Nat} (c d : BitVec n) : crcResidue (c ^^^ d) = crcResidue c + crcResidue d := by
  rw [crcResidue, bitPoly_xor, map_add]
  rfl

theorem crcResidue_zero (n : Nat) : crcResidue (0 : BitVec n) = 0 := by rw [crcResidue, bitPoly_zero, map_zero]

theorem crcResidue_append {m n : Nat} (c : BitVec m) (d : BitVec n) :
    crcResidue (c ++ d) = crcResidue d + .root crcGenerator ^ n * crcResidue c := by
  rw [crcResidue, bitPoly_append, map_add, map_mul, map_pow, AdjoinRoot.mk_X]
  rfl

/-- `x^16` is the constant of R103, modulo the generator. -/
theorem crcResidue_constant : crcResidue (0x1021 : U16) = .root crcGenerator ^ 16 := by
  have hself : AdjoinRoot.mk crcGenerator (X ^ 16 + bitPoly 16 (0x1021 : U16).getLsbD) = 0 := by
    rw [← crcGenerator_eq, AdjoinRoot.mk_self]
  have hdouble : crcResidue (0x1021 : U16) + crcResidue (0x1021 : U16) = 0 := by
    rw [← crcResidue_xor, BitVec.xor_self]
    exact crcResidue_zero 16
  rw [map_add, map_pow, AdjoinRoot.mk_X] at hself
  exact add_right_cancel (hdouble.trans hself.symm)

theorem crcResidue_ofBool (b : Bool) : crcResidue (BitVec.ofBool b) = if b then 1 else 0 := by
  cases b <;> simp [crcResidue, bitPoly]

/-- Shifted left by one, a register of 16 bits is its carry before the bits that stay. -/
theorem append_zero_eq (c : U16) : c ++ 0#1 = BitVec.ofBool (c.getLsbD 15) ++ (c <<< 1) := by
  ext i hi
  rw [← BitVec.getLsbD_eq_getElem, ← BitVec.getLsbD_eq_getElem, BitVec.getLsbD_append, BitVec.getLsbD_append]
  rcases i with _ | i
  · simp
  · rcases Nat.lt_or_eq_of_le (show i ≤ 15 by omega) with hlow | rfl
    · have hin : i + 1 < 16 := by omega
      simp [hin, BitVec.getLsbD_eq_getElem (show i < 16 by omega)]
    · simp

/-- A round multiplies by `x` modulo the generator. -/
theorem crcResidue_round (c : U16) : crcResidue (crcRound c) = .root crcGenerator * crcResidue c := by
  have hshift : .root crcGenerator * crcResidue c =
      crcResidue (c <<< 1) + .root crcGenerator ^ 16 * crcResidue (BitVec.ofBool (c.getLsbD 15)) := by
    calc .root crcGenerator * crcResidue c
      _ = crcResidue (c ++ (0 : BitVec 1)) := by rw [crcResidue_append, crcResidue_zero, zero_add, pow_one]
      _ = crcResidue (BitVec.ofBool (c.getLsbD 15) ++ (c <<< 1)) := congrArg (crcResidue (n := 17)) (append_zero_eq c)
      _ = _ := crcResidue_append _ _
  rw [hshift, crcRound_eq, crcResidue_xor, crcResidue_ofBool]
  split
  · rw [crcResidue_constant, mul_one]
  · rw [crcResidue_zero, mul_zero]

theorem crcResidue_rounds (n : Nat) (c : U16) :
    crcResidue (Nat.repeat crcRound n c) = .root crcGenerator ^ n * crcResidue c := by
  induction n with
  | zero => rw [pow_zero, one_mul]; rfl
  | succ n ih => rw [Nat.repeat, crcResidue_round, ih, pow_succ', mul_assoc]

theorem crcResidue_crcHigh (b : Byte) : crcResidue (crcHigh b) = .root crcGenerator ^ 8 * crcResidue b := by
  have hbytes : crcHigh b = b ++ (0 : Byte) := by
    rw [← show u16OfBytes b 0 = b ++ (0 : Byte) from rfl, ← crcLow_crcHigh]
    exact BitVec.or_zero.symm
  rw [hbytes, crcResidue_append, crcResidue_zero, zero_add]

theorem crcResidue_update (c : U16) (b : Byte) :
    crcResidue (crcUpdate c b) = .root crcGenerator ^ 8 * (crcResidue c + .root crcGenerator ^ 8 * crcResidue b) := by
  rw [crcUpdate_eq, crcResidue_rounds, crcResidue_xor, crcResidue_crcHigh]

/-- The checksum is congruent to `M(x) * x^16`, by induction on the bytes the loop has taken. -/
theorem crcResidue_crc16 (s : List Byte) : crcResidue (crc16 s) = .mk crcGenerator (messagePoly s * X ^ 16) := by
  induction s using List.reverseRecOn with
  | nil =>
    have hempty : messagePoly [] = 0 := rfl
    rw [hempty, zero_mul, map_zero]
    exact crcResidue_zero 16
  | append_singleton s b ih =>
    rw [crc16_append_singleton, crcResidue_update, ih, messagePoly_append_singleton]
    simp only [crcResidue, map_add, map_mul, map_pow, AdjoinRoot.mk_X]
    ring

/-- Settles O8: the checksum is congruent to `M(x) * x^16` and of lower degree than the generator. -/
theorem crc16ReturnsPolynomialRemainder : Obligations.Crc16ReturnsPolynomialRemainder := by
  intro bytes s
  refine ⟨crc16 bytes, rfl, fun m q hm hq => ?_⟩
  obtain rfl := hasBits_iff.mp hm
  obtain rfl := hasBits_iff.mp hq
  have hdegree := (degree_bitPoly_lt 16 (crc16 bytes).getLsbD).trans_eq crcGenerator_degree.symm
  have hreduced := (modByMonic_eq_self_iff crcGenerator_monic).mpr hdegree
  have hcongr := modByMonic_eq_of_dvd_sub crcGenerator_monic (AdjoinRoot.mk_eq_mk.mp (crcResidue_crc16 bytes))
  exact hreduced.symm.trans hcongr

end Sys2Proof.Machine
end

section
/-! The codec family (41_codec.md), one operation: CODEC_RESET, CODEC_PROCESS_BYTE phase by phase (R110 to R119) and the
lifetime of an instance (R127). Each phase has one equation for the byte step, and a byte presented to an open instance runs it. -/

namespace Sys2Proof.Machine

/-! ## The byte step, phase by phase (R111) -/

theorem processByte_of_idle {c : Codec} (hphase : c.phase = .idle) (p : Params) (k : Nat) (b : Byte) :
    processByte p k b c = .ok (byteIdle b c) := by
  simp only [processByte, hphase]

theorem processByte_of_length {c : Codec} (hphase : c.phase = .length) (p : Params) (k : Nat) (b : Byte) :
    processByte p k b c = .ok (byteLength p b c) := by
  simp only [processByte, hphase]

theorem processByte_of_payload {c : Codec} (hphase : c.phase = .payload) (p : Params) (k : Nat) (b : Byte) :
    processByte p k b c = .ok
      { c with buf := c.bufAfter p b
               cursor := c.cursor + 1
               phase := if c.cursor + 1 = c.len.toNat then .crcHi else .payload } := by
  simp only [processByte, hphase, bytePayload_eq, Codec.bufAfter]

theorem processByte_of_crcHi {c : Codec} (hphase : c.phase = .crcHi) (p : Params) (k : Nat) (b : Byte) :
    processByte p k b c = .ok { c with crcRx := crcHigh b, phase := .crcLo } := by
  simp only [processByte, hphase, byteCrcHi]

theorem processByte_of_crcLo {c : Codec} (hphase : c.phase = .crcLo) (p : Params) (k : Nat) (b : Byte) :
    processByte p k b c = .ok { c with crcRx := crcLow c.crcRx b, phase := .endMark } := by
  simp only [processByte, hphase, byteCrcLo]

/-- The three checks of R119: the end marker, the capacity and the checksum of what the buffer holds. -/
def Codec.passes (p : Params) (k : Nat) (b : Byte) (c : Codec) : Prop :=
  b = 0x03 ∧ c.len.toNat ≤ p.rxCapacity ∧ crc16 (c.received k) = c.crcRx

theorem processByte_endMark_deliver {p : Params} {k : Nat} {b : Byte} {c : Codec} (hphase : c.phase = .endMark)
    (hpass : c.passes p k b) :
    processByte p k b c = .ok { c with phase := .idle, onPayload := c.onPayload ++ [c.received k] } := by
  simp only [processByte, hphase, byteEnd_eq]
  exact congrArg _ (if_pos hpass)

theorem processByte_endMark_drop {p : Params} {k : Nat} {b : Byte} {c : Codec} (hphase : c.phase = .endMark)
    (hfail : ¬ c.passes p k b) : processByte p k b c = .ok { c with phase := .idle } := by
  simp only [processByte, hphase, byteEnd_eq]
  exact congrArg _ (if_neg hfail)

/-- A byte presented to an open instance changes that instance alone, as its byte step says. -/
theorem exec_byte_of_processByte {s : State} {k : Nat} {b : Byte} {c c' : Codec} (hopen : s.openAt k c)
    (hstep : processByte s.params k b c = .ok c') : exec (.byte k b) s = .next (Spec.withCodec s k c') :=
  State.onCodec_ok hopen hstep

/-! ## CODEC_RESET and the bytes of each phase (R110 to R119) -/

theorem exec_reset_eq {s : State} {k : Nat} {c : Codec} (hopen : s.openAt k c) :
    exec (.reset k) s = .next (Spec.withCodec s k { c with phase := .idle }) :=
  State.onCodec_ok (f := fun c => .ok { c with phase := .idle }) hopen rfl

/-- Settles O11. -/
theorem resetReturnsInstanceToIdle : Obligations.ResetReturnsInstanceToIdle :=
  fun _ _ _ hopen => ⟨_, exec_reset_eq hopen, rfl, hopen.2, rfl, rfl⟩

/-- Settles O17. -/
theorem byteAlwaysCompletes : Obligations.ByteAlwaysCompletes := by
  intro s k c b hopen
  obtain ⟨c', hstep, hlife, htx, hpayload⟩ := processByte_cases s.params k b c
  exact ⟨c', exec_byte_of_processByte hopen hstep, hlife.trans hopen.2, htx,
    hpayload.imp_right fun ⟨hphase, hemit⟩ => ⟨hphase, _, hemit⟩⟩

/-- A start marker in IDLE, presented as a byte or read as an instruction of its own, begins a length field of its width
(R112). -/
theorem exec_startMarker {s : State} {k w : Nat} {b : Byte} {c : Codec} (hopen : s.openAt k c)
    (hphase : c.phase = .idle) (hmarker : markerWidth b = some w) {i : Instr}
    (hi : i = .byte k b ∨ i = classifyByte .idle k b) :
    exec i s = .next (Spec.withCodec s k { c with lenWidth := w, lenGot := 0, len := 0, phase := .length }) := by
  have hbyte : exec i s = exec (.byte k b) s := by
    rcases hi with rfl | rfl
    · rfl
    · exact exec_classifyByte .idle k b s
  have hstep := processByte_of_idle hphase s.params k b
  simp only [byteIdle, hmarker] at hstep
  exact hbyte.trans (exec_byte_of_processByte hopen hstep)

/-- Settles O12. -/
theorem idleByteSelectsWidthOrIsDiscarded : Obligations.IdleByteSelectsWidthOrIsDiscarded := by
  intro s k c hopen hphase
  refine ⟨fun _ hi => exec_startMarker hopen hphase rfl hi, fun _ hi => exec_startMarker hopen hphase rfl hi,
    fun _ hi => exec_startMarker hopen hphase rfl hi, fun b h2 h3 h4 => ?_⟩
  have hplain : markerWidth b = none := by simp only [markerWidth, if_neg h2, if_neg h3, if_neg h4]
  have hstep := processByte_of_idle hphase s.params k b
  simp only [byteIdle, hplain] at hstep
  exact (exec_byte_of_processByte hopen hstep).trans (congrArg _ (State.setCodec_same hopen.1))

/-- What R113 leaves of a length byte, with the length as the number it spells. -/
theorem byteLength_eq {c : Codec} (hlen : c.len.toNat < 65536) (p : Params) (b : Byte) :
    byteLength p b c =
      if c.lenGot + 1 = c.lenWidth then
        if p.maxPayload < 256 * c.len.toNat + b.toNat then
          { c with len := BitVec.ofNat 24 (256 * c.len.toNat + b.toNat), lenGot := c.lenGot + 1, phase := .idle }
        else
          { c with
            len := BitVec.ofNat 24 (256 * c.len.toNat + b.toNat)
            lenGot := c.lenGot + 1
            cursor := 0
            phase := if 256 * c.len.toNat + b.toNat = 0 then .crcHi else .payload }
      else { c with len := BitVec.ofNat 24 (256 * c.len.toNat + b.toNat), lenGot := c.lenGot + 1 } := by
  have hnumber := pushLength_toNat hlen b
  have hpush : pushLength c.len b = BitVec.ofNat 24 (256 * c.len.toNat + b.toNat) := by
    rw [← hnumber, BitVec.ofNat_toNat, BitVec.setWidth_eq]
  have hzero : pushLength c.len b = 0 ↔ 256 * c.len.toNat + b.toNat = 0 := by
    rw [← BitVec.toNat_inj, hnumber]
    rfl
  simp only [byteLength, hnumber, hzero]
  rw [hpush]

/-- Settles O13. -/
theorem lengthByteAccumulatesAndDecides : Obligations.LengthByteAccumulatesAndDecides := by
  intro s k c b hopen hphase hlen
  have hexec := exec_byte_of_processByte hopen (processByte_of_length hphase s.params k b)
  rw [byteLength_eq hlen] at hexec
  refine ⟨fun hmore => ?_, fun hlast hlong => ?_, fun hlast hfits hzero => ?_, fun hlast hfits hpos => ?_⟩
  · rwa [if_neg hmore] at hexec
  · rwa [if_pos hlast, if_pos hlong] at hexec
  · rwa [if_pos hlast, if_neg (Nat.not_lt.mpr hfits), if_pos hzero] at hexec
  · rwa [if_pos hlast, if_neg (Nat.not_lt.mpr hfits), if_neg hpos] at hexec

/-- Settles O14. -/
theorem payloadByteIsStoredBelowCapacity : Obligations.PayloadByteIsStoredBelowCapacity := by
  intro s k c b hopen hphase
  refine ⟨c.bufAfter s.params b, exec_byte_of_processByte hopen (processByte_of_payload hphase _ _ _),
    fun hroom a => ?_, fun hfull => ?_⟩
  · rw [Codec.bufAfter, if_pos hroom, Memory.byteAt_setByte]
  · rw [Codec.bufAfter, if_neg (Nat.not_lt.mpr hfull)]

theorem crcHigh_eq (b : Byte) : crcHigh b = BitVec.ofNat 16 (256 * b.toNat) := by
  rw [← BitVec.toNat_inj, crcHigh, BitVec.toNat_shiftLeft, BitVec.toNat_setWidth_of_le (by decide), Nat.shiftLeft_eq,
    BitVec.toNat_ofNat, Nat.mul_comm]

theorem crcLow_eq (crc : U16) (b : Byte) : crcLow crc b = crc ||| BitVec.ofNat 16 b.toNat := by
  rw [crcLow, BitVec.ofNat_toNat]

/-- Settles O15. -/
theorem checksumBytesAreTakenHighFirst : Obligations.ChecksumBytesAreTakenHighFirst := by
  intro s k c b hopen
  refine ⟨fun hphase => ?_, fun hphase => ?_⟩
  · rw [← crcHigh_eq]
    exact exec_byte_of_processByte hopen (processByte_of_crcHi hphase _ _ _)
  · rw [← crcLow_eq]
    exact exec_byte_of_processByte hopen (processByte_of_crcLo hphase _ _ _)

/-- Settles O16: in END the received payload is what the buffer holds, and the checks of R119 decide. -/
theorem endByteDeliversOrDrops : Obligations.EndByteDeliversOrDrops := by
  intro s k c hopen hphase
  refine ⟨fun b hb => ?_, fun i hi => ?_⟩
  · exact exec_byte_of_processByte hopen (processByte_endMark_drop hphase fun ⟨hmarker, _⟩ => hb hmarker)
  · have hbyte : exec i s = exec (.byte k 0x03) s := by
      rcases hi with rfl | rfl
      · rfl
      · exact exec_classifyByte .endMark k 0x03 s
    rw [hbyte]
    refine ⟨fun hlong => ?_, fun pl hlen hcap hholds => ?_⟩
    · exact exec_byte_of_processByte hopen
        (processByte_endMark_drop hphase fun ⟨_, hfits, _⟩ => Nat.not_lt.mpr hfits hlong)
    · have hreceived := Codec.received_holds hlen hholds k
      refine exec_byte_of_processByte hopen ?_
      split
      · rename_i hcrc
        rw [processByte_endMark_deliver hphase ⟨rfl, hlen.trans_le hcap, hreceived.symm ▸ hcrc⟩, hreceived]
      · rename_i hcrc
        exact processByte_endMark_drop hphase fun ⟨_, _, hpass⟩ => hcrc (hreceived ▸ hpass)

/-! ## The lifetime of an instance (R127) -/

theorem step_closeEndpoint {s : State} {k : Nat} {rest : List Input} {c : Codec}
    (hinput : s.input = .closeEndpoint k :: rest) (hc : s.codecs[k]? = some c) :
    step s = .next (State.setCodec { s with input := rest } k { c with isOpen := false, phase := .idle }) := by
  simp only [step, hinput, closeEndpoint, hc]

theorem step_openEndpoint {s : State} {k : Nat} {rest : List Input} {c : Codec}
    (hinput : s.input = .openEndpoint k :: rest) (hc : s.codecs[k]? = some c) :
    step s = .next (State.setCodec { s with input := rest } k Codec.powerUp) := by
  simp only [step, hinput, openEndpoint, hc]

/-- Settles O24: every operation of a unit `Codec[k]` first looks whether its instance is open. -/
theorem closedInstanceIsRefused : Obligations.ClosedInstanceIsRefused := by
  refine ⟨fun s k c rest hinput hc => ?_, fun s k c i hc hclosed hi => ?_, fun s k c rest hinput hc _ => ?_⟩
  · exact ⟨_, step_closeEndpoint hinput hc, rfl, rfl, rfl, rfl⟩
  · obtain ⟨g, hg, _⟩ := exec_codec hi s.params
    exact (hg s rfl).trans (State.onCodec_closed _ hc hclosed)
  · exact ⟨_, step_openEndpoint hinput hc, rfl, rfl⟩

end Sys2Proof.Machine
end

section
/-! The codec family (41_codec.md), whole frames: what a codec in IDLE makes of a frame (R121, R119), what CODEC_SEND transmits
(R125, R126), and the round trip of the two (R120). -/

namespace Sys2Proof.Machine

/-! ## A whole frame (R75, R119) -/

/-- The codec after a whole frame with end byte `e`: in IDLE, the payload delivered exactly where all three checks pass. -/
def Codec.afterFrame (p : Params) (w : Nat) (P : List Byte) (hi lo e : Byte) (c : Codec) : Codec :=
  { c.atEnd p w P hi lo with
    phase := .idle
    onPayload := if e = 0x03 ∧ P.length ≤ p.rxCapacity ∧ u16OfBytes hi lo = crc16 P then c.onPayload ++ [P]
      else c.onPayload }

/-- A codec in END passes the checks of R119 where the frame's own end byte, length and checksum do. -/
theorem Codec.passes_atEnd {p : Params} {w : Nat} {P : List Byte} (hlen : P.length < 16777216) {hi lo e : Byte}
    {c : Codec} {k : Nat} :
    (c.atEnd p w P hi lo).passes p k e ↔ e = 0x03 ∧ P.length ≤ p.rxCapacity ∧ u16OfBytes hi lo = crc16 P := by
  have hlen' : (c.atEnd p w P hi lo).len.toNat = P.length := Nat.mod_eq_of_lt hlen
  unfold Codec.passes
  rw [hlen']
  refine and_congr_right fun _ => and_congr_right fun hcap => ?_
  rw [Codec.atEnd_received hcap hlen, eq_comm]
  rfl

theorem processByte_endByte {p : Params} {w : Nat} {P : List Byte} (hlen : P.length < 16777216) (hi lo e : Byte)
    (c : Codec) (k : Nat) :
    processByte p k e (c.atEnd p w P hi lo) = .ok (c.afterFrame p w P hi lo e) := by
  by_cases hpass : e = 0x03 ∧ P.length ≤ p.rxCapacity ∧ u16OfBytes hi lo = crc16 P
  · have ⟨_, hcap, _⟩ := hpass
    rw [processByte_endMark_deliver rfl ((Codec.passes_atEnd hlen).mpr hpass), Codec.atEnd_received hcap hlen,
      Codec.afterFrame, if_pos hpass]
    rfl
  · rw [processByte_endMark_drop rfl (mt (Codec.passes_atEnd hlen).mp hpass), Codec.afterFrame, if_neg hpass]
    rfl

/-- A frame fed to an open instance in IDLE, whatever its checksum bytes and its end byte are. -/
theorem execAll_feed_wire {s : State} {k w : Nat} {c : Codec} {P : List Byte} (hopen : s.openAt k c)
    (hphase : c.phase = .idle) (hlo : 1 ≤ w) (hhi : w ≤ 3) (hwidth : P.length < 256 ^ w)
    (hmax : P.length ≤ s.params.maxPayload) (hi lo e : Byte) :
    execAll (feed k (Spec.wire w P hi lo e)) s = .next (Spec.withCodec s k (c.afterFrame s.params w P hi lo e)) := by
  have hlen : P.length < 16777216 := hwidth.trans_le (Nat.pow_le_pow_right (by decide) hhi)
  have hbody := processBytes_untilEnd k hlo hhi hwidth hmax hi lo hphase
  have hend := processByte_endByte (p := s.params) (w := w) hlen hi lo e c k
  exact execAll_feed hopen ((processBytes_append hbody [e]).trans (processBytes_cons hend []))

theorem Codec.afterFrame_onPayload_of_fail {p : Params} {P : List Byte} {hi lo e : Byte}
    (hfail : ¬ (e = 0x03 ∧ P.length ≤ p.rxCapacity ∧ u16OfBytes hi lo = crc16 P)) (w : Nat) (c : Codec) :
    (c.afterFrame p w P hi lo e).onPayload = c.onPayload := if_neg hfail

theorem Codec.afterFrame_onPayload_of_pass {p : Params} {P : List Byte} {hi lo e : Byte}
    (hpass : e = 0x03 ∧ P.length ≤ p.rxCapacity ∧ u16OfBytes hi lo = crc16 P) (w : Nat) (c : Codec) :
    (c.afterFrame p w P hi lo e).onPayload = c.onPayload ++ [P] := if_pos hpass

/-- No payload byte is stored past the receive buffer, however long the payload (R116). -/
theorem Codec.afterFrame_within {p : Params} {c : Codec} (hbuf : ∀ x ∈ c.buf, x.1 < p.rxCapacity) (w : Nat)
    (P : List Byte) (hi lo e : Byte) : ∀ x ∈ (c.afterFrame p w P hi lo e).buf, x.1 < p.rxCapacity :=
  Memory.setBytes_within hbuf (by simp)

/-- The checksum received is the one sent only where both of its bytes are. -/
theorem checksum_bytes_of_eq {hi lo : Byte} {crc : U16} (h : u16OfBytes hi lo = crc) :
    hi = Spec.crcHiOf crc ∧ lo = Spec.crcLoOf crc := by
  have hhi := hi.isLt
  have hlo := lo.isLt
  rw [← BitVec.toNat_inj, u16OfBytes, toNat_append_eq] at h
  rw [← BitVec.toNat_inj, ← BitVec.toNat_inj, Spec.crcHiOf, Spec.crcLoOf, BitVec.toNat_ofNat, BitVec.toNat_ofNat]
  omega

/-- Settles O21. -/
theorem corruptedFrameDeliversNothing : Obligations.CorruptedFrameDeliversNothing := by
  intro s k w c P hi lo e hopen hphase hlo hhi hwidth hmax hcorrupt
  refine ⟨_, execAll_feed_wire hopen hphase hlo hhi hwidth hmax hi lo e, rfl,
    Codec.afterFrame_onPayload_of_fail (fun ⟨hend, _, hcrc⟩ => ?_) w c⟩
  obtain ⟨hhigh, hlow⟩ := checksum_bytes_of_eq hcrc
  exact hcorrupt.elim (· hend) (·.elim (· hhigh) (· hlow))

/-- Settles O22. -/
theorem frameBeyondCapacityIsDropped : Obligations.FrameBeyondCapacityIsDropped := by
  intro s k w c P hopen hphase hlo hhi hwidth hmax hlong hbuf
  exact ⟨_, execAll_feed_wire hopen hphase hlo hhi hwidth hmax _ _ _, rfl,
    Codec.afterFrame_onPayload_of_fail (fun ⟨_, hfits, _⟩ => Nat.not_lt.mpr hfits hlong) w c,
    Codec.afterFrame_within hbuf w P _ _ _⟩

/-! ## CODEC_SEND (R125, R126) -/

theorem bytesOf_zero (n : Nat) : Spec.bytesOf 0 n = [] := rfl

theorem be16_ofNat (n : Nat) : be16 (BitVec.ofNat 16 n) = Spec.bytesOf 2 n := by
  simp only [be16, bytesOf_succ, bytesOf_zero, List.nil_append, List.singleton_append, List.cons.injEq,
    ← BitVec.toNat_inj, toNat_extractLsb'_eq, BitVec.toNat_ofNat, and_true]
  omega

theorem be24_ofNat (n : Nat) : be24 (BitVec.ofNat 24 n) = Spec.bytesOf 3 n := by
  simp only [be24, bytesOf_succ, bytesOf_zero, List.nil_append, List.cons_append, List.cons.injEq,
    ← BitVec.toNat_inj, toNat_extractLsb'_eq, BitVec.toNat_ofNat, and_true]
  omega

theorem be16_checksum (crc : U16) : be16 crc = [Spec.crcHiOf crc, Spec.crcLoOf crc] := by
  simp only [be16, Spec.crcHiOf, Spec.crcLoOf, List.cons.injEq, ← BitVec.toNat_inj, toNat_extractLsb'_eq,
    BitVec.toNat_ofNat, and_true]
  omega

/-- The head of a frame is the marker and the length field of minimal width (30_encoding.md R78). -/
theorem frameHead_eq (n : Nat) :
    frameHead n = Spec.marker (Spec.minimalWidth n) :: Spec.bytesOf (Spec.minimalWidth n) n := by
  unfold frameHead Spec.minimalWidth
  split
  · simp [Spec.marker, Spec.bytesOf]
  · split
    · rw [be16_ofNat]; rfl
    · rw [be24_ofNat]; rfl

theorem wireFrame_eq (P : List Byte) : wireFrame P = Spec.wireFrameOf (Spec.minimalWidth P.length) P := by
  rw [wireFrame, frameHead_eq, be16_checksum]
  rfl

/-- All that CODEC_SEND does: one event with the whole frame where the payload is not too long and there is a port, nothing
otherwise. -/
theorem exec_send_eq {s : State} {k : Nat} {c : Codec} (hopen : s.openAt k c) (P : List Byte) :
    exec (.send k P) s = .next (s.setCodec k
      (if P.length ≤ s.params.maxPayload ∧ s.hasTransmit k then c.emitTransmit (wireFrame P) else c)) := by
  refine State.onCodec_ok hopen ?_
  by_cases hlen : P.length ≤ s.params.maxPayload
  · rw [if_neg (Nat.not_lt.mpr hlen)]
    by_cases hport : s.hasTransmit k = true
    · rw [if_pos hport, if_pos ⟨hlen, hport⟩]
    · rw [if_neg hport, if_neg fun h => hport h.2]
  · rw [if_pos (Nat.not_le.mp hlen), if_neg fun h => hlen h.1]

/-- Settles O23. -/
theorem sendTransmitsTheWireFrame : Obligations.SendTransmitsTheWireFrame := by
  intro s k c P _ hopen
  have hsend := exec_send_eq hopen P
  refine ⟨fun hlong => ?_, fun hport => ?_, fun hfits hport => ?_⟩
  · rw [hsend, if_neg fun h => Nat.not_lt.mpr h.1 hlong, State.setCodec_same hopen.1]
  · have hnone : ¬ s.hasTransmit k = true := by simp [State.hasTransmit, hport]
    rw [hsend, if_neg fun h => hnone h.2, State.setCodec_same hopen.1]
  · have hsome : s.hasTransmit k = true := by simp [State.hasTransmit, hport]
    rw [hsend, if_pos ⟨hfits, hsome⟩, wireFrame_eq]
    rfl

/-- Where CODEC_SEND has appended an event, it is the wire frame. -/
theorem sent_eq_wireFrame {s t : State} {j : Nat} {c c' : Codec} {P W : List Byte} (hopen : s.openAt j c)
    (hsend : exec (.send j P) s = .next t) (hc' : t.codecs[j]? = some c') (hsent : c'.transmit = c.transmit ++ [W]) :
    W = wireFrame P := by
  rw [exec_send_eq hopen] at hsend
  injection hsend with hsend
  subst hsend
  rw [State.getElem_setCodec_self hopen.1] at hc'
  injection hc' with hc'
  subst hc'
  split at hsent
  · simpa using hsent.symm
  · simp at hsent

/-! ## The round trip (R120) -/

/-- The minimal width is one of the three, and holds every length that `len` can. -/
theorem minimalWidth_spec {n : Nat} (hn : n ≤ 16777215) :
    1 ≤ Spec.minimalWidth n ∧ Spec.minimalWidth n ≤ 3 ∧ n < 256 ^ Spec.minimalWidth n := by
  unfold Spec.minimalWidth
  split_ifs <;> omega

/-- Bytes fed to a codec never fault; they only append to its payload port and leave its transmit port alone. -/
theorem processBytes_ports (p : Params) (k : Nat) (bytes : List Byte) (c : Codec) :
    ∃ c', processBytes p k bytes c = .ok c' ∧ c.onPayload <+: c'.onPayload ∧ c'.transmit = c.transmit := by
  induction bytes generalizing c with
  | nil => exact ⟨c, rfl, List.prefix_refl _, rfl⟩
  | cons b rest ih =>
    obtain ⟨c1, hstep, _, htx, hpayload⟩ := processByte_cases p k b c
    obtain ⟨c', hrest, hgrow, htx'⟩ := ih c1
    have hfirst : c.onPayload <+: c1.onPayload := by
      rcases hpayload with heq | ⟨_, heq⟩
      · exact heq ▸ List.prefix_refl _
      · exact heq ▸ List.prefix_append _ _
    exact ⟨c', (processBytes_cons hstep rest).trans hrest, hfirst.trans hgrow, htx'.trans htx⟩

/-- Ports only grow, so where a byte sequence delivers nothing, neither does any initial part of it. -/
theorem processBytes_prefix_silent {p : Params} {k : Nat} {front bytes : List Byte} {c c' : Codec}
    (hprefix : front <+: bytes) (hbytes : processBytes p k bytes c = .ok c') (hsilent : c'.onPayload = c.onPayload) :
    ∃ d, processBytes p k front c = .ok d ∧ d.onPayload = c.onPayload ∧ d.transmit = c.transmit := by
  obtain ⟨rest, rfl⟩ := hprefix
  obtain ⟨d, hfront, hgrow, htx⟩ := processBytes_ports p k front c
  obtain ⟨d', hrest, hgrow', _⟩ := processBytes_ports p k rest d
  rw [processBytes_append hfront, hrest] at hbytes
  injection hbytes with hbytes
  have hback : d.onPayload <+: c.onPayload := by rwa [hbytes, hsilent] at hgrow'
  exact ⟨d, hfront, (hgrow.eq_of_length_le hback.length_le).symm, htx⟩

/-- A frame without its end byte delivers nothing, so no proper initial part of a frame does (R120: "on the last byte"). -/
theorem execAll_feed_take_wire {s : State} {k w n : Nat} {c : Codec} {P : List Byte} {hi lo e : Byte} (hopen : s.openAt k c)
    (hphase : c.phase = .idle) (hlo : 1 ≤ w) (hhi : w ≤ 3) (hwidth : P.length < 256 ^ w)
    (hmax : P.length ≤ s.params.maxPayload) (hn : n < (Spec.wire w P hi lo e).length) :
    ∃ d, execAll (feed k ((Spec.wire w P hi lo e).take n)) s = .next (Spec.withCodec s k d) ∧
      d.onPayload = c.onPayload ∧ d.transmit = c.transmit := by
  rw [Spec.wire, List.length_append, List.length_singleton] at hn
  rw [Spec.wire, List.take_append_of_le_length (Nat.lt_succ_iff.mp hn)]
  have hbody := processBytes_untilEnd k hlo hhi hwidth hmax hi lo hphase
  obtain ⟨d, hd, hsilent, htx⟩ := processBytes_prefix_silent (List.take_prefix n _) hbody rfl
  exact ⟨d, execAll_feed hopen hd, hsilent, htx⟩

/-- Settles O19: what CODEC_SEND transmits is a frame of minimal width, whose end marker and checksum are right, so the capacity
decides. -/
theorem sentFrameIsDeliveredOnce : Obligations.SentFrameIsDeliveredOnce := by
  intro s s0 t0 k j c c0 cj P W hlegal hopen hphase hmax hopen0 hsend hcj hsent
  obtain ⟨_, hlargest, _⟩ := hlegal
  obtain ⟨hlo, hhi, hwidth⟩ := minimalWidth_spec (hmax.trans hlargest)
  obtain rfl : W = Spec.wireFrameOf (Spec.minimalWidth P.length) P :=
    (sent_eq_wireFrame hopen0 hsend hcj hsent).trans (wireFrame_eq P)
  have hframe := execAll_feed_wire hopen hphase hlo hhi hwidth hmax (Spec.crcHiOf (crc16 P)) (Spec.crcLoOf (crc16 P)) 0x03
  refine ⟨fun hcap => ?_, fun hlong => ?_, fun n hn => execAll_feed_take_wire hopen hphase hlo hhi hwidth hmax hn⟩
  · refine ⟨_, hframe, rfl, ?_, rfl⟩
    exact Codec.afterFrame_onPayload_of_pass ⟨rfl, hcap, u16OfBytes_crc (crc16 P)⟩ _ c
  · refine ⟨_, hframe, rfl, ?_, rfl⟩
    exact Codec.afterFrame_onPayload_of_fail (fun ⟨_, hfits, _⟩ => Nat.not_lt.mpr hfits hlong) _ c

end Sys2Proof.Machine
end

section
/-! The fragmenter family (42_can_tx.md), what CAN_SEND_BUFFER emits and returns (R141 to R149): the frames it offers are
`F(a, p)`, and the bus's answers, read frame by frame, decide how many of them are sent. -/

namespace Sys2Proof.Machine

/-! ## The frame sequence `F(a, p)` (R141 to R145) -/

theorem canId_eq_idOf (type a : Byte) : canId 0 type a = Spec.idOf type a := by
  rw [← BitVec.toNat_inj, canId_toNat, Spec.idOf, BitVec.toNat_ofNat]
  simp only [BitVec.ofNat_eq_ofNat, BitVec.toNat_ofNat]
  omega

theorem fillFrame_eq (ps : Params) (a : Byte) (p : List Byte) (off : Nat) :
    fillFrame ps a p off = Spec.fillAt ps a p off := by
  have hchunk : (p.drop off).take 6 = (p.drop off).take (min 6 (p.length - off)) := by
    rw [List.take_eq_take_iff, List.length_drop]
    omega
  rw [fillFrame, Spec.fillAt, canId_eq_idOf, be16_ofNat, hchunk]

theorem processFrame_eq (ps : Params) (a : Byte) (n : Nat) : processFrame ps a n = Spec.commit ps a n := by
  rw [processFrame, Spec.commit, canId_eq_idOf, be16_ofNat]

/-- The offsets of the FILL frames (R143), by their index. -/
theorem filter_range_mod_six (n : Nat) :
    (List.range n).filter (fun off => off % 6 == 0) = (List.range ((n + 5) / 6)).map (6 * ·) := by
  induction n with
  | zero => rfl
  | succ n ih =>
    rw [List.range_succ, List.filter_append, ih]
    by_cases hn : n % 6 = 0
    · have hcount : (n + 1 + 5) / 6 = (n + 5) / 6 + 1 := by omega
      have hlast : 6 * ((n + 5) / 6) = n := by omega
      simp [hcount, List.range_succ, hlast, hn]
    · have hcount : (n + 1 + 5) / 6 = (n + 5) / 6 := by omega
      simp [hcount, hn]

theorem fillFrames_eq (ps : Params) (a : Byte) (p : List Byte) : fillFrames ps a p = Spec.fills ps a p := by
  simp only [fillFrames, Spec.fills, filter_range_mod_six, List.map_map, Function.comp_def, fillFrame_eq]

theorem fragment_eq (ps : Params) (a : Byte) (p : List Byte) : fragment ps a p = Spec.frames ps a p := by
  rw [fragment, Spec.frames, fillFrames_eq, processFrame_eq, shortFrame, canId_eq_idOf]

/-! ## The bus's answers, frame by frame (R146, R148) -/

/-- The answers that accept one frame for each `j` of `js`, after `j` busy ones. -/
def acceptsAfter (js : List Nat) : List BusAnswer := js.flatMap (fun j => List.replicate j .busy ++ [.accept])

theorem acceptsAfter_replicate_zero (n : Nat) : acceptsAfter (List.replicate n 0) = List.replicate n .accept := by
  simp [acceptsAfter, List.flatMap_replicate]

/-- The frames accepted in time are sent, and the rest are offered with the answers that are left. -/
theorem offerAll_append {attempts : Nat} {js : List Nat} (hjs : ∀ j ∈ js, j < attempts) {front : List CanFrame}
    (hcount : js.length = front.length) (back : List CanFrame) {b : Bus} {rest : List BusAnswer}
    (hscript : b.script = acceptsAfter js ++ rest) :
    offerAll attempts b (front ++ back) =
      { offerAll attempts { b with script := rest } back with
        sent := front ++ (offerAll attempts { b with script := rest } back).sent } := by
  obtain ⟨script, drawn⟩ := b
  subst hscript
  induction js generalizing front with
  | nil =>
    obtain rfl := List.eq_nil_of_length_eq_zero hcount.symm
    rfl
  | cons j js ih =>
    obtain ⟨hj, hjs⟩ := List.forall_mem_cons.mp hjs
    cases front with
    | nil => cases hcount
    | cons f front =>
      have hscript : acceptsAfter (j :: js) ++ rest = List.replicate j .busy ++ .accept :: (acceptsAfter js ++ rest) := by
        simp [acceptsAfter]
      rw [hscript, List.cons_append, offerAll, Bus.offer_accepted j attempts hj]
      simp only [ih hjs (Nat.succ.inj hcount), List.cons_append]

/-- Every frame accepted in time: all are sent. -/
theorem offerAll_accepted {attempts : Nat} {js : List Nat} (hjs : ∀ j ∈ js, j < attempts) {frames : List CanFrame}
    (hcount : js.length = frames.length) {b : Bus} {rest : List BusAnswer}
    (hscript : b.script = acceptsAfter js ++ rest) :
    offerAll attempts b frames = { sent := frames, status := .ok, bus := { b with script := rest } } := by
  simpa [offerAll] using offerAll_append hjs hcount [] hscript

/-- A frame refused on every attempt: those before it are sent, and neither it nor a later one is offered again. -/
theorem offerAll_refused {attempts : Nat} {js : List Nat} (hjs : ∀ j ∈ js, j < attempts) {frames : List CanFrame}
    (hcount : js.length < frames.length) {b : Bus} {rest : List BusAnswer}
    (hscript : b.script = acceptsAfter js ++ (List.replicate attempts .busy ++ rest)) :
    offerAll attempts b frames =
      { sent := frames.take js.length, status := .abandoned, bus := { b with script := rest } } := by
  have hfront : js.length = (frames.take js.length).length := by rw [List.length_take, Nat.min_eq_left hcount.le]
  have hoffer := offerAll_append hjs hfront (frames.drop js.length) hscript
  rw [List.take_append_drop, List.drop_eq_getElem_cons hcount] at hoffer
  simpa [offerAll, Bus.offer_refused] using hoffer

/-! ## CAN_SEND_BUFFER (R142, R147) -/

/-- CAN_SEND_BUFFER offers `F(a, p)` to the bus, unless the payload is too long. -/
theorem exec_sendbuf_of_offerAll {s : State} {a : Byte} {p : List Byte} {o : Offered} (hlen : p.length ≤ 65535)
    (hoffer : offerAll s.params.txMaxAttempts s.bus (Spec.frames s.params a p) = o) :
    exec (.sendbuf a p) s = .next { s with
      txFrame := s.txFrame ++ o.sent, sendReturned := s.sendReturned ++ [o.status], bus := o.bus } := by
  rw [exec_sendbuf_eq, sendBuffer, if_neg (Nat.not_lt.mpr hlen), fragment_eq, hoffer]
  rfl

theorem exec_sendbuf_tooLong {s : State} {a : Byte} {p : List Byte} (hlen : 65535 < p.length) :
    exec (.sendbuf a p) s = .next { s with sendReturned := s.sendReturned ++ [.tooLong] } := by
  rw [exec_sendbuf_eq, sendBuffer, if_pos hlen, UnitWrite.apply, List.append_nil]

/-- Settles O25: every frame is accepted on its first attempt. -/
theorem sendbufEmitsItsFrameSequence : Obligations.SendbufEmitsItsFrameSequence := by
  intro s a p rest hlegal hlen hscript
  obtain ⟨_, _, _, _, _, _, _, hattempts, _⟩ := hlegal
  rw [← acceptsAfter_replicate_zero] at hscript
  have hfirst : ∀ j ∈ List.replicate (Spec.frames s.params a p).length 0, j < s.params.txMaxAttempts :=
    fun j hj => List.eq_of_mem_replicate hj ▸ hattempts
  exact exec_sendbuf_of_offerAll hlen (offerAll_accepted hfirst List.length_replicate hscript)

/-- Settles O27: the answers of the script, read frame by frame. -/
theorem sendbufAbandonsAfterMaxAttempts : Obligations.SendbufAbandonsAfterMaxAttempts := by
  intro s a p js rest hlen hjs
  refine ⟨fun hcount hscript => exec_sendbuf_of_offerAll hlen (offerAll_accepted hjs hcount hscript),
    fun hcount hscript => exec_sendbuf_of_offerAll hlen (offerAll_refused hjs hcount ?_)⟩
  rw [hscript, List.append_assoc]
  rfl

/-- Settles O26: all that offering a frame sequence can do. -/
theorem sendbufAlwaysReturnsAStatus : Obligations.SendbufAlwaysReturnsAStatus := by
  refine ⟨fun s a p hlen => ?_, fun s a p => exec_sendbuf_tooLong, rfl, rfl, rfl⟩
  have hexec := exec_sendbuf_of_offerAll (s := s) (a := a) hlen rfl
  rcases offerAll_cases s.params.txMaxAttempts s.bus (Spec.frames s.params a p) with
    ⟨hok, hall⟩ | ⟨habandoned, n, hn, hfirst⟩
  · rw [hall, hok] at hexec
    exact ⟨_, _, _, by rwa [List.take_length], .inl ⟨rfl, rfl⟩⟩
  · rw [hfirst, habandoned] at hexec
    exact ⟨_, _, _, hexec, .inr ⟨rfl, hn⟩⟩

end Sys2Proof.Machine
end

section
/-! The fragmenter family (42_can_tx.md), the replay law (R153): the FILL frames of a payload, presented in order, accumulate
its bytes from offset 0 up, whatever the key held before, and the PROCESS frame then delivers them. -/

namespace Sys2Proof.Machine

/-! ## Presenting frames to `CanRx` -/

theorem execAll_append {is : List Instr} {s t : State} (h : execAll is s = .next t) (js : List Instr) :
    execAll (is ++ js) s = execAll js t := by
  induction is generalizing s with
  | nil => cases h; rfl
  | cons i is ih =>
    simp only [execAll, List.cons_append] at h ⊢
    cases hexec : exec i s with
    | next s' => rw [hexec] at h; exact ih h
    | fault f => rw [hexec] at h; cases h
    | refused r => rw [hexec] at h; cases h

theorem replay_append (front back : List CanFrame) : replay (front ++ back) = replay front ++ replay back :=
  List.map_append

/-- Presenting one frame is one CAN_RX_FRAME. -/
theorem execAll_replay_singleton (f : CanFrame) (s : State) : execAll (replay [f]) s = exec (.rx f.id f.data) s := by
  simp only [replay, List.map_cons, List.map_nil, execAll]
  cases exec (.rx f.id f.data) s <;> rfl

/-! The handler that the packet type of an identifier selects (43_can_rx.md R160). -/

theorem exec_rx_short (s : State) (hi : BitVec 13) (a : Byte) (d : List Byte) :
    exec (.rx (canId hi s.params.typeShort a) d) s = rxShort a d s := by
  rw [← exec_classifyFrame, classifyFrame_short (idType_canId _ _ _), idAddress_canId]
  rfl

theorem exec_rx_fill {s : State} (hlegal : s.params.legal) (hi : BitVec 13) (a : Byte) (d : List Byte) :
    exec (.rx (canId hi s.params.typeFill a) d) s = rxFill a d s := by
  rw [← exec_classifyFrame, classifyFrame_fill hlegal (idType_canId _ _ _), idAddress_canId]
  rfl

theorem exec_rx_process {s : State} (hlegal : s.params.legal) (hi : BitVec 13) (a : Byte) (d : List Byte) :
    exec (.rx (canId hi s.params.typeProcess a) d) s = rxProcess a d s := by
  rw [← exec_classifyFrame, classifyFrame_process hlegal (idType_canId _ _ _), idAddress_canId]
  rfl

theorem execAll_replay_fillFrame {s : State} {ps : Params} (hparams : s.params = ps) (hlegal : ps.legal) (a : Byte)
    (p : List Byte) (off : Nat) :
    execAll (replay [fillFrame ps a p off]) s = rxFill a (be16 (BitVec.ofNat 16 off) ++ (p.drop off).take 6) s := by
  subst hparams
  exact (execAll_replay_singleton _ s).trans (exec_rx_fill hlegal 0 a _)

theorem execAll_replay_processFrame {s : State} {ps : Params} (hparams : s.params = ps) (hlegal : ps.legal) (a : Byte)
    (n : Nat) : execAll (replay [processFrame ps a n]) s = rxProcess a (be16 (BitVec.ofNat 16 n)) s := by
  subst hparams
  exact (execAll_replay_singleton _ s).trans (exec_rx_process hlegal 0 a _)

/-! ## Accumulating a payload (43_can_rx.md R166, R168, R173) -/

/-- The active entry that has accumulated `P` in the buffer of `e`. -/
def Entry.accumulated (e : Entry) (P : List Byte) : Entry :=
  { active := true, fillLen := P.length, rbuf := e.rbuf.setBytes 0 P }

@[simp] theorem Entry.accumulated_active (e : Entry) (P : List Byte) : (e.accumulated P).active = true := rfl

@[simp] theorem Entry.accumulated_fillLen (e : Entry) (P : List Byte) : (e.accumulated P).fillLen = P.length := rfl

theorem Entry.accumulated_holds (e : Entry) (P : List Byte) : (e.accumulated P).rbuf.holds P := by
  intro i hi
  rw [Entry.accumulated, Memory.byteAt_setBytes, if_pos (by omega), Nat.sub_zero]

theorem Entry.append_accumulated (e : Entry) (P chunk : List Byte) :
    (e.accumulated P).append P.length chunk = e.accumulated (P ++ chunk) := by
  simp [Entry.append, Entry.accumulated, Memory.setBytes_append]

@[simp] theorem State.setEntry_setEntry (s : State) (a : Byte) (e e' : Entry) :
    (s.setEntry a e).setEntry a e' = s.setEntry a e' := by
  simp [State.setEntry]

theorem dataNumber_be16 {n : Nat} (hn : n < 65536) :
    dataNumber ((BitVec.ofNat 16 n).extractLsb' 8 8) ((BitVec.ofNat 16 n).extractLsb' 0 8) = n := by
  simp only [dataNumber, u16OfBytes, toNat_append_eq, toNat_extractLsb'_eq, BitVec.toNat_ofNat]
  omega

/-- The FILL frame at offset 0 starts the entry afresh, whatever it was (43_can_rx.md R166). -/
theorem rxFill_start {s : State} {chunk : List Byte} (hfits : chunk.length ≤ s.params.canBufCapacity) (a : Byte) :
    rxFill a (be16 (BitVec.ofNat 16 0) ++ chunk) s = .next (s.setEntry a ((s.entry a).accumulated chunk)) := by
  rw [rxFill_eq]
  simp only [be16, List.cons_append, List.nil_append, fillResult]
  rw [if_pos (dataNumber_be16 (by omega)), if_neg (Nat.not_lt.mpr hfits)]
  rfl

/-- The FILL frame at the next offset appends its bytes (43_can_rx.md R168). -/
theorem rxFill_continue {s : State} {a : Byte} {e : Entry} {P chunk : List Byte} (hentry : s.entry a = e.accumulated P)
    (hpos : 0 < P.length) (hoff : P.length < 65536) (hfits : P.length + chunk.length ≤ s.params.canBufCapacity) :
    rxFill a (be16 (BitVec.ofNat 16 P.length) ++ chunk) s = .next (s.setEntry a (e.accumulated (P ++ chunk))) := by
  rw [rxFill_eq]
  simp [be16, fillResult, dataNumber_be16 hoff, hentry, hpos.ne', Nat.not_lt.mpr hfits, Entry.append_accumulated]

/-- The PROCESS frame of an entry that has accumulated `P` delivers `P` (43_can_rx.md R173). -/
theorem rxProcess_accumulated {s : State} {a : Byte} {e : Entry} {P : List Byte} (hentry : s.entry a = e.accumulated P)
    (hlen : P.length < 65536) (hfits : P.length ≤ s.params.canBufCapacity) :
    rxProcess a (be16 (BitVec.ofNat 16 P.length)) s =
      .next ((s.setEntry a (e.accumulated P).discard).emitDeliver a P) := by
  have hread := memRead_holds (e.accumulated_holds P) (.rbuf a) hfits
  simp [be16, rxProcess, dataNumber_be16 hlen, hentry, hread]

/-! ## The frames of a payload (R153) -/

/-- The first `n + 1` FILL frames of `p` accumulate the bytes they carry. -/
theorem execAll_replay_fills {s : State} {p : List Byte} (hlegal : s.params.legal) (hfits : p.length ≤ s.params.canBufCapacity)
    (a : Byte) {n : Nat} (hn : 6 * n < p.length) :
    execAll (replay ((List.range (n + 1)).map (fun i => fillFrame s.params a p (6 * i)))) s =
      .next (s.setEntry a ((s.entry a).accumulated (p.take (6 * (n + 1))))) := by
  induction n with
  | zero =>
    have hchunk : (p.take 6).length ≤ s.params.canBufCapacity := (List.length_take_le' 6 p).trans hfits
    exact (execAll_replay_fillFrame rfl hlegal a p 0).trans (rxFill_start hchunk a)
  | succ n ih =>
    have hfront : (p.take (6 * (n + 1))).length = 6 * (n + 1) := List.length_take_of_le hn.le
    have hall : (p.take (6 * (n + 1))).length + ((p.drop (6 * (n + 1))).take 6).length ≤ s.params.canBufCapacity := by
      simp only [List.length_take, List.length_drop]
      omega
    rw [List.range_succ, List.map_append, replay_append, execAll_append (ih (by omega))]
    have hentry := State.entry_setEntry_self s a ((s.entry a).accumulated (p.take (6 * (n + 1))))
    have hoffset : 6 * (n + 1) < 65536 := by
      obtain ⟨_, _, _, hcapacity, _⟩ := hlegal
      omega
    have hnext := rxFill_continue hentry (by omega) (hfront.trans_lt hoffset) hall
    rw [hfront, ← List.take_add, State.setEntry_setEntry] at hnext
    exact (execAll_replay_fillFrame (State.setEntry_params s a _) hlegal a p _).trans hnext

/-- A fragmented payload is delivered, and its key left inactive. -/
theorem execAll_replay_fragment_long {s : State} {p : List Byte} (hlegal : s.params.legal) (hlo : 7 ≤ p.length)
    (hhi : p.length ≤ 65535) (hfits : p.length ≤ s.params.canBufCapacity) (a : Byte) :
    execAll (replay (fragment s.params a p)) s =
      .next ((s.setEntry a ((s.entry a).accumulated p).discard).emitDeliver a p) := by
  obtain ⟨n, hcount⟩ : ∃ n, (p.length + 5) / 6 = n + 1 := ⟨(p.length + 5) / 6 - 1, by omega⟩
  have hfills := execAll_replay_fills hlegal hfits a (n := n) (by omega)
  rw [← hcount, List.take_of_length_le (by omega)] at hfills
  have hentry := State.entry_setEntry_self s a ((s.entry a).accumulated p)
  have hcommit := rxProcess_accumulated hentry (by omega) hfits
  rw [State.setEntry_setEntry] at hcommit
  rw [fragment_long _ _ hlo hhi, replay_append, fillFrames, execAll_append hfills]
  exact (execAll_replay_processFrame (State.setEntry_params s a _) hlegal a _).trans hcommit

theorem execAll_replay_fragment_short {p : List Byte} (hp : p.length ≤ 6) (s : State) (a : Byte) :
    execAll (replay (fragment s.params a p)) s = .next (s.emitDeliver a p) := by
  rw [fragment_short _ _ hp, execAll_replay_singleton]
  exact exec_rx_short s 0 a p

/-- Settles O37: what CAN_SEND_BUFFER sent whole is `F(a, p)`, one SHORT frame or the FILL frames and the commit. -/
theorem replayedFramesDeliverThePayload : Obligations.ReplayedFramesDeliverThePayload := by
  intro s s0 t0 a p frames hlegal hparams hlen hfits hsend hok hframes
  obtain rfl : frames = fragment s.params a p := by
    rw [← hparams]
    exact List.append_cancel_left (hframes.symm.trans (txFrame_of_sendbuf_ok hsend hok))
  by_cases hshort : p.length ≤ 6
  · refine ⟨s.entry a, ?_, fun hlong => by omega, fun _ => rfl⟩
    have hsame : s.emitDeliver a p = (s.setEntry a (s.entry a)).emitDeliver a p := by rw [State.setEntry_entry]
    rw [execAll_replay_fragment_short hshort, hsame]
    rfl
  · refine ⟨((s.entry a).accumulated p).discard, ?_, fun _ => ⟨rfl, rfl⟩, fun h => absurd h hshort⟩
    exact execAll_replay_fragment_long hlegal (by omega) hlen (hfits.resolve_left hshort) a

end Sys2Proof.Machine
end

section
/-! The reassembly family (43_can_rx.md), one frame at a time: what presents a frame of a class runs its handler (R160), and what
each handler does with the frame in every case (R163 to R173, R175). -/

namespace Sys2Proof.Machine

/-! ## What presents a frame of a class runs the handler of that class (R160) -/

theorem idAddress_of_addressOf {id : CanId} {a : Byte} (h : Spec.addressOf id = a.toNat) : idAddress id = a := by
  rw [← BitVec.toNat_inj, ← addressOf_eq, h]

theorem exec_of_isShort {s : State} {i : Instr} {a : Byte} {d : List Byte} (h : Spec.IsShort s.params i a d) :
    exec i s = rxShort a d s := by
  rcases h with ⟨_, rfl⟩ | ⟨id, rfl, haddress, htype⟩
  · rfl
  · rw [← exec_classifyFrame, classifyFrame_short (typeOf_eq_iff.mp htype), idAddress_of_addressOf haddress]
    rfl

theorem exec_of_isFill {s : State} {i : Instr} {a : Byte} {d : List Byte} (hlegal : s.params.legal)
    (h : Spec.IsFill s.params i a d) : exec i s = rxFill a d s := by
  rcases h with ⟨_, rfl⟩ | ⟨id, rfl, haddress, htype⟩
  · rfl
  · rw [← exec_classifyFrame, classifyFrame_fill hlegal (typeOf_eq_iff.mp htype), idAddress_of_addressOf haddress]
    rfl

theorem exec_of_isProcess {s : State} {i : Instr} {a : Byte} {d : List Byte} (hlegal : s.params.legal)
    (h : Spec.IsProcess s.params i a d) : exec i s = rxProcess a d s := by
  rcases h with ⟨_, rfl⟩ | ⟨id, rfl, haddress, htype⟩
  · rfl
  · rw [← exec_classifyFrame, classifyFrame_process hlegal (typeOf_eq_iff.mp htype), idAddress_of_addressOf haddress]
    rfl

theorem exec_of_isOther {s : State} {i : Instr} {id : CanId} {d : List Byte} (h : Spec.IsOther s.params i id d) :
    exec i s = rxOther id d s := by
  rcases h with rfl | ⟨rfl, hshort, hfill, hprocess⟩
  · rfl
  · simp only [ne_eq, typeOf_eq_iff] at hshort hfill hprocess
    rw [← exec_classifyFrame, classifyFrame_other ⟨hshort, hfill, hprocess⟩]
    rfl

/-- Settles O29. -/
theorem shortFrameDelivers : Obligations.ShortFrameDelivers := fun _ _ _ _ h => exec_of_isShort h

/-- Settles O33. -/
theorem otherFramePassesThrough : Obligations.OtherFramePassesThrough := fun _ _ _ _ h => exec_of_isOther h

/-! ## FILL frames (R165 to R170) -/

theorem failKey_eq_failed (s : State) (a : Byte) (r : FailReason) : s.failKey a r = Spec.failed s a r := rfl

/-- The number of two data bytes, most significant first (R164, R172). -/
theorem dataNumber_eq (d0 d1 : Byte) : dataNumber d0 d1 = 256 * d0.toNat + d1.toNat := toNat_append_eq d0 d1

/-- A FILL frame at offset `off` is the next of a sequence held in `e`, or starts one (R166, R169). -/
def Entry.Expects (e : Entry) (off : Nat) : Prop := off = 0 ∨ (e.active = true ∧ off = e.fillLen)

section
variable {s : State} {a d0 d1 : Byte} {chunk : List Byte}

theorem fillResult_malformed {d : List Byte} (h : d.length < 2) : fillResult a d s = s.failKey a .malformed := by
  match d with
  | [] => rfl
  | [_] => rfl
  | _ :: _ :: _ => simp only [List.length_cons] at h; omega

theorem fillResult_stray (hoff : dataNumber d0 d1 ≠ 0) (hinactive : (s.entry a).active = false) :
    fillResult a (d0 :: d1 :: chunk) s = s := by
  rw [fillResult, if_neg hoff, if_pos hinactive]

theorem fillResult_outOfOrder (hoff : dataNumber d0 d1 ≠ 0) (hactive : (s.entry a).active = true)
    (hnext : dataNumber d0 d1 ≠ (s.entry a).fillLen) :
    fillResult a (d0 :: d1 :: chunk) s = s.failKey a .outOfOrder := by
  rw [fillResult, if_neg hoff, if_neg (by simp [hactive]), if_pos hnext]

/-- A FILL frame in sequence has room for its bytes, or loses the entry (R166, R168, R170). -/
theorem fillResult_expected (h : (s.entry a).Expects (dataNumber d0 d1)) :
    fillResult a (d0 :: d1 :: chunk) s =
      if s.params.canBufCapacity < dataNumber d0 d1 + chunk.length then s.failKey a .overflow
      else s.setEntry a { active := true, fillLen := dataNumber d0 d1 + chunk.length,
                          rbuf := (s.entry a).rbuf.setBytes (dataNumber d0 d1) chunk } := by
  by_cases hoff : dataNumber d0 d1 = 0
  · rw [fillResult, if_pos hoff, hoff, Nat.zero_add]
  · obtain ⟨hactive, hnext⟩ := h.resolve_left hoff
    rw [fillResult, if_neg hoff, if_neg (by simp [hactive]), if_neg (not_not_intro hnext), Entry.append, hactive]

end

/-- Settles O30. -/
theorem fillFrameErrors : Obligations.FillFrameErrors := by
  intro s i a d hlegal hfill
  simp only [exec_of_isFill hlegal hfill, rxFill_eq, ← failKey_eq_failed, ← dataNumber_eq]
  refine ⟨fun hshort => by rw [fillResult_malformed hshort], ?_⟩
  rintro d0 d1 chunk rfl
  refine ⟨fun hoff hinactive => by rw [fillResult_stray hoff hinactive],
    fun hoff hactive hnext => by rw [fillResult_outOfOrder hoff hactive hnext],
    fun hexpected hover => by rw [fillResult_expected hexpected, if_pos hover]⟩

/-- Settles O31. -/
theorem fillFrameAppends : Obligations.FillFrameAppends := by
  intro s i a d0 d1 chunk hlegal hfill
  simp only [exec_of_isFill hlegal hfill, rxFill_eq, ← dataNumber_eq]
  intro hexpected hfits
  rw [fillResult_expected hexpected, if_neg (Nat.not_lt.mpr hfits)]
  exact ⟨_, rfl, rfl, rfl, fun x => Memory.byteAt_setBytes chunk _ _ x⟩

/-! ## PROCESS frames (R171 to R173) -/

section
variable {s : State} {a d0 d1 : Byte} {rest : List Byte}

theorem rxProcess_malformed {d : List Byte} (h : d.length < 2) : rxProcess a d s = .next (s.failKey a .malformed) := by
  match d with
  | [] => rfl
  | [_] => rfl
  | _ :: _ :: _ => simp only [List.length_cons] at h; omega

theorem rxProcess_noBuffer (hinactive : (s.entry a).active = false) :
    rxProcess a (d0 :: d1 :: rest) s = .next (s.emitFail a .noBuffer) := by
  simp [rxProcess, hinactive]

theorem rxProcess_lengthMismatch (hactive : (s.entry a).active = true)
    (hlength : (s.entry a).fillLen ≠ dataNumber d0 d1) :
    rxProcess a (d0 :: d1 :: rest) s = .next (s.failKey a .lengthMismatch) := by
  simp [rxProcess, hactive, hlength]

theorem rxProcess_match {pl : List Byte} (hactive : (s.entry a).active = true)
    (hlength : (s.entry a).fillLen = dataNumber d0 d1) (hpl : pl.length = dataNumber d0 d1)
    (hfits : pl.length ≤ s.params.canBufCapacity) (hholds : (s.entry a).rbuf.holds pl) :
    rxProcess a (d0 :: d1 :: rest) s = .next ((s.setEntry a (s.entry a).discard).emitDeliver a pl) := by
  have hread := memRead_holds hholds (.rbuf a) hfits
  simp [rxProcess, hactive, hlength, ← hpl, hread]

end

/-- Settles O32. -/
theorem processFrameCommitsOrFails : Obligations.ProcessFrameCommitsOrFails := by
  intro s i a d hlegal hprocess
  simp only [exec_of_isProcess hlegal hprocess, ← failKey_eq_failed, ← dataNumber_eq]
  refine ⟨rxProcess_malformed, ?_⟩
  rintro d0 d1 rest rfl
  exact ⟨rxProcess_noBuffer, rxProcess_lengthMismatch, fun pl hactive hlength hpl hfits hholds =>
    rxProcess_match hactive hlength hpl (hpl ▸ hfits) hholds⟩

/-! ## Keys (R174) -/

theorem RxEffect.entry_apply_self (r : RxEffect) (a : Byte) (s : State) : (r.apply a s).entry a = r.entry := by
  simp [RxEffect.apply, State.entry]

theorem RxEffect.entry_apply_ne (r : RxEffect) {a b : Byte} (h : b ≠ a) (s : State) :
    (r.apply a s).entry b = s.entry b :=
  State.entry_setEntry_ne s r.entry h

theorem agentOf_of_keyed {i : Instr} {a : Byte} (h : Spec.Keyed i a) : agentOf i = .canRx ∧ keyOf i = a := by
  rcases h with ⟨_, _, rfl | rfl | rfl⟩ | ⟨_, _, rfl, haddress⟩
  · exact ⟨rfl, rfl⟩
  · exact ⟨rfl, rfl⟩
  · exact ⟨rfl, rfl⟩
  · exact ⟨rfl, idAddress_of_addressOf haddress⟩

/-- Settles O35: a frame's effect is a function of its key's entry and the parameters, and is applied to that key alone. -/
theorem reassemblyKeysAreIndependent : Obligations.ReassemblyKeysAreIndependent := by
  intro s s' t i a hkeyed h
  obtain ⟨hagent, rfl⟩ := agentOf_of_keyed hkeyed
  rcases exec_canRx hagent s.params (s.entry (keyOf i)) with ⟨f, hf⟩ | ⟨r, _, hr⟩
  · rw [hf s rfl rfl] at h
    cases h
  · obtain rfl : r.apply (keyOf i) s = t := Host.Outcome.next.inj ((hr s rfl rfl).symm.trans h)
    refine ⟨fun b hb => r.entry_apply_ne hb s, fun hparams hentry => ?_⟩
    exact ⟨_, r.deliver, r.fail, r.other, hr s' hparams hentry,
      (r.entry_apply_self _ s').trans (r.entry_apply_self _ s).symm, rfl, rfl, rfl, rfl, rfl, rfl⟩

end Sys2Proof.Machine
end

section
/-! The reassembly family (43_can_rx.md), the frames of one payload in any order: what a sequence of its FILL frames, given by
their indices, makes of a key, and what the PROCESS frame then finds there (the laws R176 and R177). -/

namespace Sys2Proof.Machine

/-! ## A sequence of FILL frames of one payload, by their indices -/

/-- The data of the FILL frame at offset `off` of `p` (42_can_tx.md R143). -/
def fillData (p : List Byte) (off : Nat) : List Byte := be16 (BitVec.ofNat 16 off) ++ (p.drop off).take 6

/-- The indices of the FILL frames of `p`, in the order of their offsets. -/
def fillIndices (p : List Byte) : List Nat := List.range ((p.length + 5) / 6)

/-- The FILL frames of `p` with the indices `is`, in that order. -/
def fillsAt (ps : Params) (a : Byte) (p : List Byte) (is : List Nat) : List CanFrame :=
  is.map (fun i => fillFrame ps a p (6 * i))

/-- The state after the FILL frames of `p` with the indices `is`, in that order. -/
def State.afterFills (s : State) (a : Byte) (p : List Byte) (is : List Nat) : State :=
  is.foldl (fun t i => fillResult a (fillData p (6 * i)) t) s

theorem fillFrames_eq_fillsAt (ps : Params) (a : Byte) (p : List Byte) :
    fillFrames ps a p = fillsAt ps a p (fillIndices p) := rfl

theorem mem_fillIndices {p : List Byte} {i : Nat} : i ∈ fillIndices p ↔ 6 * i < p.length := by
  rw [fillIndices, List.mem_range]
  omega

theorem fillIndices_length (p : List Byte) : (fillIndices p).length = (p.length + 5) / 6 := List.length_range

theorem fillIndices_take {p : List Byte} {k : Nat} (hk : k ≤ (p.length + 5) / 6) :
    (fillIndices p).take k = List.range k := by
  rw [fillIndices, List.take_range, Nat.min_eq_left hk]

theorem fillIndices_drop_cons {p : List Byte} {j : Nat} (hj : j < (p.length + 5) / 6) :
    (fillIndices p).drop j = j :: (fillIndices p).drop (j + 1) := by
  rw [List.drop_eq_getElem_cons (by rwa [fillIndices_length])]
  simp only [fillIndices, List.getElem_range]

theorem fillsAt_append (ps : Params) (a : Byte) (p : List Byte) (is js : List Nat) :
    fillsAt ps a p (is ++ js) = fillsAt ps a p is ++ fillsAt ps a p js := List.map_append

theorem fillsAt_take (ps : Params) (a : Byte) (p : List Byte) (is : List Nat) (k : Nat) :
    (fillsAt ps a p is).take k = fillsAt ps a p (is.take k) := List.map_take.symm

theorem fillsAt_drop (ps : Params) (a : Byte) (p : List Byte) (is : List Nat) (k : Nat) :
    (fillsAt ps a p is).drop k = fillsAt ps a p (is.drop k) := List.map_drop.symm

@[simp] theorem State.afterFills_nil (s : State) (a : Byte) (p : List Byte) : s.afterFills a p [] = s := rfl

@[simp] theorem State.afterFills_cons (s : State) (a : Byte) (p : List Byte) (i : Nat) (is : List Nat) :
    s.afterFills a p (i :: is) = (fillResult a (fillData p (6 * i)) s).afterFills a p is := rfl

theorem State.afterFills_append (s : State) (a : Byte) (p : List Byte) (is js : List Nat) :
    s.afterFills a p (is ++ js) = (s.afterFills a p is).afterFills a p js := List.foldl_append

@[simp] theorem fillResult_params (a : Byte) (d : List Byte) (s : State) : (fillResult a d s).params = s.params := by
  unfold fillResult
  split
  · split_ifs <;> rfl
  · rfl

/-- A FILL frame delivers nothing (R165). -/
@[simp] theorem fillResult_deliver (a : Byte) (d : List Byte) (s : State) : (fillResult a d s).deliver = s.deliver := by
  unfold fillResult
  split
  · split_ifs <;> rfl
  · rfl

@[simp] theorem State.afterFills_params (s : State) (a : Byte) (p : List Byte) (is : List Nat) :
    (s.afterFills a p is).params = s.params := by
  induction is generalizing s with
  | nil => rfl
  | cons i is ih => rw [State.afterFills_cons, ih, fillResult_params]

@[simp] theorem State.afterFills_deliver (s : State) (a : Byte) (p : List Byte) (is : List Nat) :
    (s.afterFills a p is).deliver = s.deliver := by
  induction is generalizing s with
  | nil => rfl
  | cons i is ih => rw [State.afterFills_cons, ih, fillResult_deliver]

/-- Presenting FILL frames of a payload gives the state after them. -/
theorem execAll_replay_fillsAt {s : State} {ps : Params} (hparams : s.params = ps) (hlegal : ps.legal) (a : Byte)
    (p : List Byte) (is : List Nat) : execAll (replay (fillsAt ps a p is)) s = .next (s.afterFills a p is) := by
  induction is generalizing s with
  | nil => rfl
  | cons i is ih =>
    have hfirst := (execAll_replay_fillFrame hparams hlegal a p (6 * i)).trans (rxFill_eq a _ s)
    exact (execAll_append hfirst _).trans (ih ((fillResult_params a _ s).trans hparams))

/-- Presenting FILL frames of a payload and then a commit runs the commit in the state after them. -/
theorem execAll_replay_fillsAt_commit {s : State} (hlegal : s.params.legal) (a : Byte) (p : List Byte) (is : List Nat)
    (n : Nat) : execAll (replay (fillsAt s.params a p is ++ [processFrame s.params a n])) s =
      rxProcess a (be16 (BitVec.ofNat 16 n)) (s.afterFills a p is) := by
  rw [replay_append, execAll_append (execAll_replay_fillsAt rfl hlegal a p is)]
  exact execAll_replay_processFrame (s.afterFills_params a p is) hlegal a n

/-- A payload that fits a legal buffer has a 16-bit length (00_scope.md R6). -/
theorem length_lt_of_fits {ps : Params} (hlegal : ps.legal) {p : List Byte} (hfits : p.length ≤ ps.canBufCapacity) :
    p.length < 65536 := by
  obtain ⟨_, _, _, hcapacity, _⟩ := hlegal
  omega

/-! ## One FILL frame of the payload -/

/-- `is` are indices of FILL frames of `p` other than the first. -/
def LaterFills (p : List Byte) (is : List Nat) : Prop := ∀ i ∈ is, 0 < i ∧ 6 * i < p.length

theorem laterFills_cons {p : List Byte} {i : Nat} {is : List Nat} :
    LaterFills p (i :: is) ↔ (0 < i ∧ 6 * i < p.length) ∧ LaterFills p is := List.forall_mem_cons

theorem laterFills_drop (p : List Byte) {j : Nat} (hj : 0 < j) :
    LaterFills p ((fillIndices p).drop j) := by
  intro i hi
  rw [fillIndices, List.range_eq_range', List.drop_range', List.mem_range'_1] at hi
  omega

section
variable {s : State} {a : Byte} {p : List Byte} {i : Nat}

theorem fillResult_fillData_stray (hpos : 0 < i) (hi : 6 * i < 65536) (hinactive : (s.entry a).active = false) :
    fillResult a (fillData p (6 * i)) s = s :=
  fillResult_stray (by rw [dataNumber_be16 hi]; omega) hinactive

theorem fillResult_fillData_outOfOrder (hpos : 0 < i) (hi : 6 * i < 65536) (hactive : (s.entry a).active = true)
    (hnext : (s.entry a).fillLen ≠ 6 * i) : fillResult a (fillData p (6 * i)) s = s.failKey a .outOfOrder :=
  fillResult_outOfOrder (by rw [dataNumber_be16 hi]; omega) hactive (by rw [dataNumber_be16 hi]; exact hnext.symm)

/-- The first FILL frame starts the entry afresh, whatever it was (R166). -/
theorem fillResult_fillData_first (hfits : p.length ≤ s.params.canBufCapacity) :
    fillResult a (fillData p 0) s = s.setEntry a ((s.entry a).accumulated (p.take 6)) :=
  Host.Outcome.next.inj ((rxFill_eq a _ s).symm.trans (rxFill_start ((List.length_take_le' 6 p).trans hfits) a))

/-- The FILL frame after those that an entry has accumulated adds its bytes (R168). -/
theorem fillResult_fillData_next {e : Entry} (hentry : s.entry a = e.accumulated (p.take (6 * i))) (hpos : 0 < i)
    (hi : 6 * i < p.length) (hlen : p.length < 65536) (hfits : p.length ≤ s.params.canBufCapacity) :
    fillResult a (fillData p (6 * i)) s = s.setEntry a (e.accumulated (p.take (6 * (i + 1)))) := by
  have hfront : (p.take (6 * i)).length = 6 * i := List.length_take_of_le hi.le
  have hroom : (p.take (6 * i)).length + ((p.drop (6 * i)).take 6).length ≤ s.params.canBufCapacity := by
    simp only [List.length_take, List.length_drop]
    omega
  have hnext := rxFill_continue hentry (by omega) (by omega) hroom
  rw [hfront, ← List.take_add, rxFill_eq] at hnext
  exact Host.Outcome.next.inj hnext

end

/-! ## Sequences of FILL frames -/

section
variable {s : State} {a : Byte} {p : List Byte} {is : List Nat}

/-- An inactive key ignores every FILL frame but the first (R169). -/
theorem State.afterFills_stray (hlen : p.length < 65536) (hlater : LaterFills p is)
    (hinactive : (s.entry a).active = false) : s.afterFills a p is = s := by
  induction is with
  | nil => rfl
  | cons i is ih =>
    obtain ⟨⟨hpos, hi⟩, hlater⟩ := laterFills_cons.mp hlater
    rw [State.afterFills_cons, fillResult_fillData_stray hpos (hi.trans hlen) hinactive, ih hlater]

/-- A FILL frame out of order loses the entry, and those behind it are ignored (R169). -/
theorem State.afterFills_outOfOrder {i : Nat} (hlen : p.length < 65536) (hlater : LaterFills p (i :: is))
    (hactive : (s.entry a).active = true) (hnext : (s.entry a).fillLen ≠ 6 * i) :
    s.afterFills a p (i :: is) = s.failKey a .outOfOrder := by
  obtain ⟨⟨hpos, hi⟩, hlater⟩ := laterFills_cons.mp hlater
  rw [State.afterFills_cons, fillResult_fillData_outOfOrder hpos (hi.trans hlen) hactive hnext]
  exact State.afterFills_stray hlen hlater (by simp)

/-- The first `k` FILL frames in order accumulate the bytes they carry, whatever the key held (R166, R168). -/
theorem State.afterFills_range (hlegal : s.params.legal) (hfits : p.length ≤ s.params.canBufCapacity) {k : Nat}
    (hpos : 0 < k) (hk : k ≤ (p.length + 5) / 6) :
    s.afterFills a p (List.range k) = s.setEntry a ((s.entry a).accumulated (p.take (6 * k))) := by
  obtain ⟨n, rfl⟩ := Nat.exists_eq_add_one.mpr hpos
  have hrun := execAll_replay_fills hlegal hfits a (n := n) (by omega)
  exact Host.Outcome.next.inj ((execAll_replay_fillsAt rfl hlegal a p _).symm.trans hrun)

/-- Behind an entry that has accumulated the first `k` FILL frames, the entry survives only the next ones in order. -/
theorem State.afterFills_accumulated_cases (hlen : p.length < 65536) (hfits : p.length ≤ s.params.canBufCapacity)
    {e : Entry} {k : Nat} (hpos : 0 < k) (hentry : s.entry a = e.accumulated (p.take (6 * k)))
    (hlater : LaterFills p is) :
    ((s.afterFills a p is).entry a).active = false ∨
    (is = List.range' k is.length ∧
      (s.afterFills a p is).entry a = e.accumulated (p.take (6 * (k + is.length)))) := by
  induction is generalizing s k with
  | nil => exact .inr ⟨rfl, hentry⟩
  | cons i is ih =>
    obtain ⟨⟨_, hi⟩, hrest⟩ := laterFills_cons.mp hlater
    by_cases hik : i = k
    · subst hik
      rw [State.afterFills_cons, fillResult_fillData_next hentry hpos hi hlen hfits]
      refine (ih (by simpa using hfits) i.succ_pos (State.entry_setEntry_self s a _) hrest).imp_right ?_
      rintro ⟨hinOrder, hend⟩
      refine ⟨?_, ?_⟩
      · rw [List.length_cons, List.range'_succ, ← hinOrder]
      · rw [hend, List.length_cons, Nat.succ_add_eq_add_succ]
    · have hnext : (s.entry a).fillLen ≠ 6 * i := by
        rw [hentry, Entry.accumulated_fillLen, List.length_take]
        omega
      rw [State.afterFills_outOfOrder hlen hlater (by simp [hentry]) hnext]
      exact .inl (by simp)

end

/-! ## The order law (R176) -/

/-- All FILL frames of a payload in another order than theirs never leave the whole payload behind. -/
theorem State.afterFills_reordered {s : State} {a : Byte} {p : List Byte} {is : List Nat} (hlen : p.length < 65536)
    (hfits : p.length ≤ s.params.canBufCapacity) (hnonempty : 0 < p.length)
    (hperm : is.Perm (fillIndices p)) (hne : is ≠ fillIndices p) :
    ((s.afterFills a p is).entry a).active = false ∨ ((s.afterFills a p is).entry a).fillLen ≠ p.length := by
  have hmem : ∀ i, i ∈ is ↔ 6 * i < p.length := fun i => hperm.mem_iff.trans mem_fillIndices
  have hcount : is.length = (p.length + 5) / 6 := by rw [hperm.length_eq, fillIndices_length]
  obtain ⟨front, back, rfl⟩ := List.append_of_mem ((hmem 0).mpr (by omega))
  have hnodup : (front ++ 0 :: back).Nodup := hperm.nodup_iff.mpr List.nodup_range
  have hlater : LaterFills p back := by
    intro i hi
    have hzero : i ≠ 0 := by
      rintro rfl
      simp [List.nodup_middle, hi] at hnodup
    exact ⟨Nat.pos_of_ne_zero hzero, (hmem i).mp (by simp [hi])⟩
  rw [List.length_append, List.length_cons] at hcount
  have hfits' : p.length ≤ (s.afterFills a p front).params.canBufCapacity := by simpa using hfits
  rw [State.afterFills_append, State.afterFills_cons, Nat.mul_zero, fillResult_fillData_first hfits']
  refine (State.afterFills_accumulated_cases (k := 1) hlen (by simpa using hfits) Nat.one_pos
    (State.entry_setEntry_self _ a _) hlater).imp_right ?_
  rintro ⟨hinOrder, hend⟩
  rw [hend, Entry.accumulated_fillLen, List.length_take]
  have hfront : front.length ≠ 0 := by
    intro hfront
    refine hne ?_
    rw [List.eq_nil_of_length_eq_zero hfront, List.nil_append, fillIndices, List.range_eq_range', ← hcount, hfront,
      Nat.zero_add, List.range'_succ, ← hinOrder]
  omega

/-- FILL frames of a payload presented in some order are those of the indices in some order. -/
theorem exists_perm_of_perm_fillFrames {ps : Params} {a : Byte} {p : List Byte} {frames : List CanFrame}
    (h : frames.Perm (fillFrames ps a p)) :
    ∃ is, frames = fillsAt ps a p is ∧ is.Perm (fillIndices p) := by
  have hcomp : Relation.Comp (· = List.map (fun i => fillFrame ps a p (6 * i)) ·) List.Perm frames
      (fillIndices p) := by
    rw [List.eq_map_comp_perm]
    exact h
  exact hcomp

/-- A commit whose length the entry does not match delivers nothing (R172, R173). -/
theorem rxProcess_be16_undelivered {s : State} {a : Byte} {n : Nat} (hn : n < 65536)
    (h : (s.entry a).active = false ∨ (s.entry a).fillLen ≠ n) :
    ∃ t, rxProcess a (be16 (BitVec.ofNat 16 n)) s = .next t ∧ t.deliver = s.deliver := by
  cases hactive : (s.entry a).active with
  | false => exact ⟨_, rxProcess_noBuffer hactive, rfl⟩
  | true =>
    have hlength : (s.entry a).fillLen ≠ n := h.resolve_left (by simp [hactive])
    exact ⟨_, rxProcess_lengthMismatch hactive (by rwa [dataNumber_be16 hn]), rfl⟩

/-- Settles O38: only the frames behind the first one can survive, and some frame stands before it or out of its place. -/
theorem reorderedFragmentsDeliverNothing : Obligations.ReorderedFragmentsDeliverNothing := by
  intro s a p frames hlegal hlo hfits hperm hne
  have hlen := length_lt_of_fits hlegal hfits
  rw [← fillFrames_eq] at hperm hne
  rw [← processFrame_eq]
  obtain ⟨is, rfl, hindices⟩ := exists_perm_of_perm_fillFrames hperm
  have hreordered : is ≠ fillIndices p := fun h => hne (congrArg _ h)
  obtain ⟨t, ht, hdeliver⟩ := rxProcess_be16_undelivered hlen
    (State.afterFills_reordered (s := s) (a := a) hlen hfits (by omega) hindices hreordered)
  exact ⟨t, (execAll_replay_fillsAt_commit hlegal a p is p.length).trans ht, hdeliver.trans (by simp)⟩

/-! ## Loss and duplication (R177) -/

/-- Presenting `frames` completes, appends the events `dl` and `fl` and leaves the key active exactly when `on`. -/
def State.EndsWith (s : State) (a : Byte) (frames : List CanFrame) (dl : List (Byte × List Byte))
    (fl : List (Byte × FailReason)) (on : Bool) : Prop :=
  ∃ t, execAll (replay frames) s = .next t ∧ t.deliver = s.deliver ++ dl ∧ t.fail = s.fail ++ fl ∧
    (t.entry a).active = on

section
variable {s : State} {a : Byte} {p : List Byte} (hlegal : s.params.legal) (hfits : p.length ≤ s.params.canBufCapacity)
include hlegal

/-! What the commit behind a sequence of FILL frames finds (R172, R173). -/

/-- An inactive key: NO_BUFFER is reported, after what the FILL frames reported. -/
theorem State.endsWith_of_inactive {is : List Nat} {fl : List (Byte × FailReason)}
    (hinactive : ((s.afterFills a p is).entry a).active = false) (hfail : (s.afterFills a p is).fail = s.fail ++ fl) :
    s.EndsWith a (fillsAt s.params a p is ++ [processFrame s.params a p.length]) [] (fl ++ [(a, .noBuffer)]) false :=
  ⟨_, (execAll_replay_fillsAt_commit hlegal a p is p.length).trans (rxProcess_noBuffer hinactive), by simp, by simp [hfail],
    hinactive⟩

include hfits

/-- The whole payload: it is delivered. -/
theorem execAll_commit_of_accumulated {is : List Nat} {e : Entry}
    (hfills : s.afterFills a p is = s.setEntry a (e.accumulated p)) :
    execAll (replay (fillsAt s.params a p is ++ [processFrame s.params a p.length])) s =
      .next ((s.setEntry a (e.accumulated p).discard).emitDeliver a p) := by
  have hcommit := rxProcess_accumulated (State.entry_setEntry_self s a (e.accumulated p)) (length_lt_of_fits hlegal hfits)
    hfits
  rw [execAll_replay_fillsAt_commit hlegal, hfills, hcommit, State.setEntry_setEntry]

/-! The rows of the table. -/

/-- The first `k` FILL frames, and then those from index `j` on, which is not the next one. -/
theorem State.afterFills_range_drop {j k : Nat} (hj : 0 < j) (hjcount : j < (p.length + 5) / 6) (hk : 0 < k)
    (hkcount : k ≤ (p.length + 5) / 6) (hjk : k ≠ j) :
    s.afterFills a p (List.range k ++ (fillIndices p).drop j) =
      (s.setEntry a ((s.entry a).accumulated (p.take (6 * k)))).failKey a .outOfOrder := by
  have hlater := laterFills_drop p hj
  rw [fillIndices_drop_cons hjcount] at hlater ⊢
  rw [State.afterFills_append, State.afterFills_range hlegal hfits hk hkcount]
  refine State.afterFills_outOfOrder (length_lt_of_fits hlegal hfits) hlater (by simp) ?_
  rw [State.entry_setEntry_self, Entry.accumulated_fillLen, List.length_take]
  omega

/-- A FILL frame between the first and the last lost (`j = k + 1`), or one after the first presented again (`k = j + 1`):
OUT_OF_ORDER, and the commit finds no entry. -/
theorem State.endsWith_outOfOrder {j k : Nat} (hj : 0 < j) (hjcount : j < (p.length + 5) / 6) (hk : 0 < k)
    (hkcount : k ≤ (p.length + 5) / 6) (hjk : k ≠ j) :
    s.EndsWith a ((fillFrames s.params a p).take k ++ (fillFrames s.params a p).drop j ++
      [processFrame s.params a p.length]) [] [(a, .outOfOrder), (a, .noBuffer)] false := by
  have hfills := State.afterFills_range_drop (a := a) hlegal hfits hj hjcount hk hkcount hjk
  rw [fillFrames_eq_fillsAt, fillsAt_take, fillsAt_drop, ← fillsAt_append, fillIndices_take hkcount]
  exact State.endsWith_of_inactive hlegal (fl := [(a, .outOfOrder)]) (by simp [hfills]) (by simp [hfills])

theorem State.endsWith_lastLost (hlo : 7 ≤ p.length) :
    s.EndsWith a ((fillFrames s.params a p).dropLast ++ [processFrame s.params a p.length]) []
      [(a, .lengthMismatch)] false := by
  have hcount : (fillFrames s.params a p).length - 1 = (p.length + 5) / 6 - 1 := by simp [fillFrames]
  have hfills := State.afterFills_range (s := s) (a := a) hlegal hfits (k := (p.length + 5) / 6 - 1) (by omega) (by omega)
  have hshort : (p.take (6 * ((p.length + 5) / 6 - 1))).length ≠ p.length := by
    rw [List.length_take]
    omega
  have hcommit := execAll_replay_fillsAt_commit hlegal a p (List.range ((p.length + 5) / 6 - 1)) p.length
  rw [List.dropLast_eq_take, hcount, fillFrames_eq_fillsAt, fillsAt_take, fillIndices_take (Nat.sub_le _ 1)]
  rw [hfills] at hcommit
  refine ⟨_, hcommit.trans (rxProcess_lengthMismatch (by simp) ?_), by simp, by simp, by simp⟩
  rwa [dataNumber_be16 (length_lt_of_fits hlegal hfits), State.entry_setEntry_self]

theorem State.endsWith_firstLost (hinactive : (s.entry a).active = false) :
    s.EndsWith a ((fillFrames s.params a p).tail ++ [processFrame s.params a p.length]) [] [(a, .noBuffer)] false := by
  have hfills : s.afterFills a p ((fillIndices p).drop 1) = s :=
    State.afterFills_stray (length_lt_of_fits hlegal hfits) (laterFills_drop p Nat.one_pos) hinactive
  rw [← List.drop_one, fillFrames_eq_fillsAt, fillsAt_drop]
  exact State.endsWith_of_inactive hlegal (fl := []) (by rwa [hfills]) (by rw [hfills, List.append_nil])

/-- All FILL frames in order accumulate the payload. -/
theorem State.afterFills_all (hpos : 0 < p.length) :
    s.afterFills a p (fillIndices p) = s.setEntry a ((s.entry a).accumulated p) := by
  rw [fillIndices, State.afterFills_range hlegal hfits (by omega) le_rfl, List.take_of_length_le (by omega)]

theorem State.endsWith_commitLost (hpos : 0 < p.length) : s.EndsWith a (fillFrames s.params a p) [] [] true := by
  have hrun := execAll_replay_fillsAt rfl hlegal a p (fillIndices p)
  rw [State.afterFills_all hlegal hfits hpos] at hrun
  exact ⟨_, hrun, by simp, by simp, by simp⟩

/-- The first `k` FILL frames, and then the sequence from its start: a harmless restart (R166). -/
theorem State.endsWith_restarted {k : Nat} (hk : 0 < k) (hkcount : k ≤ (p.length + 5) / 6) :
    s.EndsWith a ((fillFrames s.params a p).take k ++ fillFrames s.params a p ++ [processFrame s.params a p.length])
      [(a, p)] [] false := by
  have hall := State.afterFills_all (s := s.setEntry a ((s.entry a).accumulated (p.take (6 * k)))) (a := a) hlegal hfits
    (by omega)
  have hfills := State.afterFills_append s a p (List.range k) (fillIndices p)
  rw [State.afterFills_range hlegal hfits hk hkcount, hall, State.entry_setEntry_self, State.setEntry_setEntry] at hfills
  rw [fillFrames_eq_fillsAt, fillsAt_take, ← fillsAt_append, fillIndices_take hkcount]
  exact ⟨_, execAll_commit_of_accumulated hlegal hfits hfills, by simp, by simp, by simp⟩

theorem State.endsWith_commitTwice (hpos : 0 < p.length) :
    s.EndsWith a (fillFrames s.params a p ++ [processFrame s.params a p.length, processFrame s.params a p.length])
      [(a, p)] [(a, .noBuffer)] false := by
  have hfirst := execAll_commit_of_accumulated hlegal hfits (State.afterFills_all (a := a) hlegal hfits hpos)
  have hsecond := execAll_replay_processFrame
    (s := (s.setEntry a ((s.entry a).accumulated p).discard).emitDeliver a p) rfl hlegal a p.length
  rw [List.append_cons, State.EndsWith, replay_append, fillFrames_eq_fillsAt, execAll_append hfirst]
  exact ⟨_, hsecond.trans (rxProcess_noBuffer (by simp)), by simp, by simp, by simp⟩

end

/-- Settles O39, row by row. -/
theorem lossAndDuplicationOutcomes : Obligations.LossAndDuplicationOutcomes := by
  intro s a p hlegal hlo hfits hinactive
  have hcount : (fillFrames s.params a p).length = (p.length + 5) / 6 := by simp [fillFrames]
  have hpos : 0 < p.length := by omega
  simp only [← fillFrames_eq, ← processFrame_eq]
  refine ⟨fun j hj hjlast => ?_, State.endsWith_lastLost hlegal hfits hlo, State.endsWith_firstLost hlegal hfits hinactive,
    State.endsWith_commitLost hlegal hfits hpos, ?_, fun j hj hjcount => ?_,
    State.endsWith_restarted hlegal hfits Nat.one_pos (by omega), State.endsWith_commitTwice hlegal hfits hpos⟩
  · rw [List.eraseIdx_eq_take_drop_succ]
    exact State.endsWith_outOfOrder hlegal hfits j.succ_pos (by omega) hj (by omega) (by omega)
  · have htwice := State.endsWith_restarted (a := a) hlegal hfits (k := (p.length + 5) / 6) (by omega) le_rfl
    rwa [List.take_of_length_le hcount.le] at htwice
  · exact State.endsWith_outOfOrder hlegal hfits hj (by omega) j.succ_pos (by omega) (by omega)

end Sys2Proof.Machine
end

section
/-! The exceptions family (60_exceptions.md): a reassembly error is reported once and alone (R203), with the codes of R204. -/

namespace Sys2Proof.Machine

/-- A frame of key `a` that completes has one effect, applied to its key, which reports at most one error. -/
theorem exec_keyed_inv {s t : State} {i : Instr} {a : Byte} (hkeyed : Spec.Keyed i a) (h : exec i s = .next t) :
    ∃ r : RxEffect, r.reportsOnce a ∧ t = r.apply a s := by
  obtain ⟨hagent, rfl⟩ := agentOf_of_keyed hkeyed
  rcases exec_canRx hagent s.params (s.entry (keyOf i)) with ⟨x, hfault⟩ | ⟨r, honce, hnext⟩
  · rw [hfault s rfl rfl] at h
    cases h
  · exact ⟨r, honce, Host.Outcome.next.inj (h.symm.trans (hnext s rfl rfl))⟩

/-- What an effect that reports at most one error leaves on the ports and in its key's entry. -/
theorem RxEffect.reportsOnce.apply {r : RxEffect} {a : Byte} (honce : r.reportsOnce a) (s : State) :
    (r.apply a s).fail = s.fail ∨
      ∃ x, (r.apply a s).fail = s.fail ++ [(a, x)] ∧ (r.apply a s).deliver = s.deliver ∧
        (r.apply a s).otherFrame = s.otherFrame ∧ ((r.apply a s).entry a).active = false := by
  rcases honce with hnone | ⟨x, hfail, hdeliver, hother, hinactive⟩
  · left
    simp [RxEffect.apply, hnone]
  · refine .inr ⟨x, ?_, ?_, ?_, ?_⟩
    · simp [RxEffect.apply, hfail]
    · simp [RxEffect.apply, hdeliver]
    · simp [RxEffect.apply, hother]
    · rwa [r.entry_apply_self]

/-- Settles O36. -/
theorem reassemblyErrorsAreReportedOnce : Obligations.ReassemblyErrorsAreReportedOnce := by
  refine ⟨fun s t i a hkeyed h => ?_, rfl, rfl, rfl, rfl, rfl⟩
  obtain ⟨r, honce, rfl⟩ := exec_keyed_inv hkeyed h
  exact honce.apply s

end Sys2Proof.Machine
end

section
/-! The hazards family (70_reset_and_hazards.md), the same-key collision (R227): a FILL frame is accepted by its offset alone,
so what an entry has accumulated goes on with the bytes of whichever payload the next frame carries. -/

namespace Sys2Proof.Machine

section
variable {s : State} (hlegal : s.params.legal) (a : Byte)
include hlegal

/-- The first FILL frame of a payload restarts the key, whatever sequence was under way there (R166). -/
theorem execAll_replay_fillFrame_first {p : List Byte} (hfits : p.length ≤ s.params.canBufCapacity) :
    execAll (replay [fillFrame s.params a p 0]) s = .next (s.setEntry a ((s.entry a).accumulated (p.take 6))) :=
  (execAll_replay_fillFrame rfl hlegal a p 0).trans (rxFill_start ((List.length_take_le' 6 p).trans hfits) a)

/-- A FILL frame of `p` at the next offset is appended to what the key has accumulated, of this payload or another (R168). -/
theorem execAll_replay_fillFrame_spliced {e : Entry} {P p : List Byte} (hpos : 0 < P.length) (hnext : P.length ≤ p.length)
    (hfits : p.length ≤ s.params.canBufCapacity) :
    execAll (replay [fillFrame s.params a p P.length]) (s.setEntry a (e.accumulated P)) =
      .next (s.setEntry a (e.accumulated (P ++ (p.drop P.length).take 6))) := by
  have hroom : P.length + ((p.drop P.length).take 6).length ≤ s.params.canBufCapacity := by
    simp only [List.length_take, List.length_drop]
    omega
  have happend := rxFill_continue (State.entry_setEntry_self s a (e.accumulated P)) hpos
    (hnext.trans_lt (length_lt_of_fits hlegal hfits)) hroom
  rw [State.setEntry_setEntry] at happend
  exact (execAll_replay_fillFrame (State.setEntry_params s a _) hlegal a p P.length).trans happend

/-- The PROCESS frame of the accumulated length delivers what the key has accumulated (R173). -/
theorem execAll_replay_processFrame_accumulated {e : Entry} {P : List Byte} (hfits : P.length ≤ s.params.canBufCapacity) :
    execAll (replay [processFrame s.params a P.length]) (s.setEntry a (e.accumulated P)) =
      .next ((s.setEntry a (e.accumulated P).discard).emitDeliver a P) := by
  have hcommit := rxProcess_accumulated (State.entry_setEntry_self s a (e.accumulated P)) (length_lt_of_fits hlegal hfits)
    hfits
  rw [State.setEntry_setEntry] at hcommit
  exact (execAll_replay_processFrame (State.setEntry_params s a _) hlegal a P.length).trans hcommit

/-- Of two 12-byte payloads, `B`'s first frame, `A`'s second and a commit deliver both halves as one payload (R227). -/
theorem execAll_replay_mixed {A B : List Byte} (hA : A.length = 12) (hB : B.length = 12)
    (hcapacity : 12 ≤ s.params.canBufCapacity) :
    execAll (replay [fillFrame s.params a B 0, fillFrame s.params a A 6, processFrame s.params a 12]) s =
      .next ((s.setEntry a ((s.entry a).accumulated (B.take 6 ++ A.drop 6)).discard).emitDeliver a
        (B.take 6 ++ A.drop 6)) := by
  have hhead : (B.take 6).length = 6 := List.length_take_of_le (by omega)
  have htail : (A.drop 6).take 6 = A.drop 6 := List.take_of_length_le (by rw [List.length_drop]; omega)
  have hmixed : (B.take 6 ++ A.drop 6).length = 12 := by rw [List.length_append, hhead, List.length_drop]; omega
  have hfirst := execAll_replay_fillFrame_first hlegal a (hB.trans_le hcapacity)
  have hsecond := execAll_replay_fillFrame_spliced hlegal a (e := s.entry a) (P := B.take 6) (p := A) (by omega) (by omega)
    (hA.trans_le hcapacity)
  have hcommit := execAll_replay_processFrame_accumulated hlegal a (e := s.entry a) (hmixed.trans_le hcapacity)
  rw [hhead, htail] at hsecond
  rw [hmixed] at hcommit
  exact (execAll_append hfirst _).trans ((execAll_append hsecond _).trans hcommit)

end

/-- Settles O40: `A`'s first frame only leaves an entry that `B`'s first frame restarts. -/
theorem sameKeyCollisionMixesPayloads : Obligations.SameKeyCollisionMixesPayloads := by
  intro s a A B hlegal hA hB hcapacity
  rw [← fillFrame_eq, ← fillFrame_eq, ← fillFrame_eq, ← processFrame_eq]
  have hstart := execAll_replay_fillFrame_first hlegal a (hA.trans_le hcapacity)
  have hmixed := execAll_replay_mixed (s := s.setEntry a ((s.entry a).accumulated (A.take 6))) hlegal a hA hB hcapacity
  exact ⟨_, (execAll_append hstart _).trans hmixed, by simp, by simp⟩

end Sys2Proof.Machine
end

section
/-! What the model chooses where the spec is silent: the idle step (log 24), and a marker outside its row's phase (log 17). -/

namespace Sys2Proof.Machine

theorem step_of_input_nil {s : State} (hinput : s.input = []) : step s = .next s := by
  simp only [step, hinput]

/-- Settles O6. -/
theorem stepWithoutInputChangesNothing : Obligations.StepWithoutInputChangesNothing :=
  fun _ hinput => step_of_input_nil hinput

/-- Settles O7: each marker is what its byte is read as in the phase of its row, and what a byte is read as does what the byte
does, whatever phase the codec is in. -/
theorem wireMarkersAreTheirBytes : Obligations.WireMarkersAreTheirBytes := fun k s =>
  ⟨exec_classifyByte .idle k 0x02 s, exec_classifyByte .idle k 0x03 s, exec_classifyByte .idle k 0x04 s,
    exec_classifyByte .endMark k 0x03 s⟩

end Sys2Proof.Machine
end
